-- ==== Sys2Proof/Word.lean ====
section
/-! DEFINITION. The word types of the register interface and the two ports (spec 00_scope R7, 20_memory R60). -/

namespace Sys2Proof

/-- One 16-bit bus word: a register write, the status read, one Memory Port access (R90, R61). -/
abbrev Word := BitVec 16

/-- One byte of a sector (R63). -/
abbrev Byte := BitVec 8

/-- A 32-bit word address of the Memory Port, the spec's `W32` (R61). -/
abbrev Addr := BitVec 32

end Sys2Proof
end

