-- ==== Sys2Proof/Config.lean ====
section
/-! DEFINITION. What is fixed for one controller: the timing constants, the parameters the spec leaves open (00_scope R5, R6), and the one free value. -/

namespace Sys2Proof

/-- `BUSY_NS` (R5, R265): how long the controller stays Busy. -/
def Config.busyNs : Nat := 1000000

/-- `INDEX_PULSE_NS` (R5, R265): how long `index` reads 1. -/
def Config.indexPulseNs : Nat := 1100

/-- `ROTATION_NS` (R5, R265): how long `index` reads 0 between two pulses. -/
def Config.rotationNs : Nat := 20000000

/-- `UNIT_READY_RESET` (R5, D8): `unitReady` after any reset, with a drive attached. -/
def Config.unitReadyReset : Bool := true

/-- FREE VALUE (44_events R209, U12; log 12). Which of several events with the same due time is delivered first, as a number
reduced modulo how many there are. The argument is State's `tieCount`, so every choice is a fresh one. -/
opaque Config.tieOrder : Nat → Nat

/-- A box of sector addresses: `DiskValid` is a finite union of such boxes (R5). All bounds are inclusive. -/
structure SectorZone where
  cylinderFrom : Nat
  cylinderTo : Nat
  headFrom : Nat
  headTo : Nat
  sectorFrom : Nat
  sectorTo : Nat
deriving DecidableEq, Repr

/-- A range of word addresses, bounds inclusive: `MemValid` is a finite union of such ranges (R5). -/
structure AddrRange where
  first : Nat
  last : Nat
deriving DecidableEq, Repr

/-- `PORT_MAP` (R5): the bus address of each register, one for each selector of R103, as a number (the spec gives no width). No rule reads
it (U13), and it claims nothing about the hardware (D21). -/
structure PortMap where
  command : Nat
  head : Nat
  cylinderSector : Nat
  serialLow : Nat
  serialHigh : Nat
  blockNumber : Nat
  headerAddrLow : Nat
  headerAddrHigh : Nat
  dataBufferAddrLow : Nat
  dataBufferAddrHigh : Nat
  status : Nat
deriving DecidableEq, Repr

/-- The parameters of R5 that the spec leaves OPEN or to the configuration, as plain data. Every set of sector addresses,
every set of word addresses and every involution on 16 bits can be written this way, so a statement for every state is a
statement for every value of the parameters (log 2, log 16). -/
structure Params where
  /-- `CYL_COUNT`. -/
  cylCount : Nat
  /-- `DiskValid`. -/
  sectorZones : List SectorZone
  /-- `HEADER_BYTES`. -/
  headerBytes : Nat
  /-- `DATA_BYTES`. -/
  dataBytes : Nat
  /-- `MemValid`. -/
  memRanges : List AddrRange
  /-- `STATUS_DONE` (R95). -/
  statusDone : BitVec 3
  /-- `STATUS_BUSY` (R95). -/
  statusBusy : BitVec 3
  /-- `unfrob`: what a word not listed in `unfrobTable` is xor-ed with (R102). -/
  unfrobMask : Word
  /-- `unfrob`: words with another image, and that image (R102). -/
  unfrobTable : List (Word × Word)
  /-- `PORT_MAP`. -/
  portMap : PortMap
deriving DecidableEq, Repr

/-- The constraints of R6 (a), (b), (c) on the parameters. R6(d), the involution law, holds of every value by construction
(`Machine.unfrob`), and R6(e) because the timing constants are no state. -/
abbrev Params.wf (p : Params) : Prop :=
  1 ≤ p.cylCount ∧ p.headerBytes % 2 = 0 ∧ 2 ≤ p.headerBytes ∧ p.dataBytes % 2 = 0 ∧ 2 ≤ p.dataBytes ∧
    p.statusDone ≠ p.statusBusy

/-- PRESUMED (log 2): the example and default values the spec marks as general knowledge (R5, G1, G2, G4, G5).
DESIGN CHOICE (log 3): every word address is valid.
DESIGN CHOICE (log 30): each register stands at the bus address that is its selector. -/
def Params.default : Params where
  cylCount := 202
  sectorZones := [⟨0, 201, 0, 7, 0, 29⟩]
  headerBytes := 16
  dataBytes := 512
  memRanges := [⟨0, 0xFFFFFFFF⟩]
  statusDone := 0
  statusBusy := 7
  unfrobMask := 0xFC00
  unfrobTable := []
  portMap := ⟨0, 1, 2, 3, 4, 5, 6, 7, 8, 9, 10⟩

end Sys2Proof
end

