-- ==== Sys2Proof/Syntax.lean ====
section
/-! DEFINITION. The instructions: one constructor per row of spec/opcode_table.json (00_scope R12), and the eight command codes. -/

namespace Sys2Proof

/-- The eight commands that bits 2:0 of a command word select (30_encoding R92). -/
inductive Command where
  | idle
  | readChk
  | readDiag
  | writeChk
  | writeFirst
  | format
  | seek
  | reset
deriving DecidableEq, Repr

/-- What the agents make the block do (R12). The CMD and CMDMOD rows name a command word by its code or by one modifier bit, and carry
the WHOLE word: the block only ever sees whole command writes (R140; log 8). -/
inductive Instr where
  /-- `Idle` (R141), the command word `w` with bits 2:0 = 0. -/
  | idle (w : Word)
  /-- `ReadChk` (R142). -/
  | readChk (w : Word)
  /-- `ReadDiag` (R143). -/
  | readDiag (w : Word)
  /-- `WriteChk` (R144). -/
  | writeChk (w : Word)
  /-- `WriteFirst` (R145). -/
  | writeFirst (w : Word)
  /-- `Format` (R146). -/
  | format (w : Word)
  /-- `Seek` (R147), the unhandled code. -/
  | seek (w : Word)
  /-- `Reset` (R148), the command. -/
  | cmdReset (w : Word)
  /-- `StepSet` (R161): a command word with bit 4 = 1. -/
  | stepSet (w : Word)
  /-- `StepRelease` (R162): a command word with bit 4 = 0. -/
  | stepRelease (w : Word)
  /-- `DirIn` (R165): a command word with bit 3 = 0. -/
  | dirIn (w : Word)
  /-- `DirAway` (R165): a command word with bit 3 = 1. -/
  | dirAway (w : Word)
  /-- `writeCommand` (R140), selector 0. -/
  | writeCommand (v : Word)
  /-- `writeHead` (R121), selector 1. -/
  | writeHead (v : Word)
  /-- `writeCylinderSector` (R122), selector 2. -/
  | writeCylinderSector (v : Word)
  /-- `writeSerialLow` (R123), selector 3. -/
  | writeSerialLow (v : Word)
  /-- `writeSerialHigh` (R124), selector 4. -/
  | writeSerialHigh (v : Word)
  /-- `writeBlockNumber` (R125), selector 5. -/
  | writeBlockNumber (v : Word)
  /-- `writeHeaderAddrLow` (R126), selector 6. -/
  | writeHeaderAddrLow (v : Word)
  /-- `writeHeaderAddrHigh` (R127), selector 7. -/
  | writeHeaderAddrHigh (v : Word)
  /-- `writeDataBufferAddrLow` (R128), selector 8. -/
  | writeDataBufferAddrLow (v : Word)
  /-- `writeDataBufferAddrHigh` (R129), selector 9. -/
  | writeDataBufferAddrHigh (v : Word)
  /-- `readStatus` (R130), selector 10. -/
  | readStatus
  /-- `BusyDone` (R203): the handler of a delivered completion event. -/
  | busyDone
  /-- `IndexStart` (R204). -/
  | indexStart
  /-- `IndexEnd` (R205). -/
  | indexEnd
  /-- `reset` (R251), the environment's reset of the controller. -/
  | envReset
  /-- `seekBy` (R167), with an unbounded signed operand. -/
  | seekBy (delta : Int)
deriving DecidableEq, Repr

end Sys2Proof
end

