-- ==== Sys2Proof/WellFormed.lean ====
section
/-! DEFINITION. Which instructions the encoding can express: the match and mask columns of spec/opcode_table.json on the command word. -/

namespace Sys2Proof

/-- The row test of the opcode table: `word & mask = match`. -/
def matchesRow (mask pattern w : Word) : Bool := (w &&& mask) == pattern

/-- An instruction is well formed when its command word lies in its row (R91, R92, R93). The other rows put no condition on their
operands: the operand of a write is any word (R106), and the delta of `seekBy` any integer (R167). -/
def Instr.wf : Instr → Bool
  | .idle w => matchesRow 0x0007 0x0000 w
  | .readChk w => matchesRow 0x0007 0x0001 w
  | .readDiag w => matchesRow 0x0007 0x0002 w
  | .writeChk w => matchesRow 0x0007 0x0003 w
  | .writeFirst w => matchesRow 0x0007 0x0004 w
  | .format w => matchesRow 0x0007 0x0005 w
  | .seek w => matchesRow 0x0007 0x0006 w
  | .cmdReset w => matchesRow 0x0007 0x0007 w
  | .stepSet w => matchesRow 0x0010 0x0010 w
  | .stepRelease w => matchesRow 0x0010 0x0000 w
  | .dirIn w => matchesRow 0x0008 0x0000 w
  | .dirAway w => matchesRow 0x0008 0x0008 w
  | .writeCommand _ => true
  | .writeHead _ => true
  | .writeCylinderSector _ => true
  | .writeSerialLow _ => true
  | .writeSerialHigh _ => true
  | .writeBlockNumber _ => true
  | .writeHeaderAddrLow _ => true
  | .writeHeaderAddrHigh _ => true
  | .writeDataBufferAddrLow _ => true
  | .writeDataBufferAddrHigh _ => true
  | .readStatus => true
  | .busyDone => true
  | .indexStart => true
  | .indexEnd => true
  | .envReset => true
  | .seekBy _ => true

end Sys2Proof
end

