-- ==== Sys2Proof/Decode.lean ====
section
/-! DEFINITION. Field extraction from the value formats of 30_encoding R90, the decoder of an access (total, rejecting by name) and the encoder. -/

namespace Sys2Proof

/-! ## The fields of the value formats -/

/-- Format `CMD` (R91): `cmd = v[2:0]`. -/
def cmdField (w : Word) : BitVec 3 := w.extractLsb' 0 3

/-- Format `CMD` (R91, R93): `dir = v[3]`, 0 toward cylinder 0, 1 away. -/
def dirBit (w : Word) : Bool := w.getLsbD 3

/-- Format `CMD` (R91, R93): `step = v[4]`. -/
def stepBit (w : Word) : Bool := w.getLsbD 4

/-- The command codes of R92. -/
def commandOfCode (c : BitVec 3) : Command :=
  match c.toNat with
  | 0 => .idle
  | 1 => .readChk
  | 2 => .readDiag
  | 3 => .writeChk
  | 4 => .writeFirst
  | 5 => .format
  | 6 => .seek
  | _ => .reset

/-- The command a command word selects (R91, R92). -/
def commandOf (w : Word) : Command := commandOfCode (cmdField w)

/-- Format `CYLSEC` (R96): `sector = v[4:0]`. -/
def cylSecSector (w : Word) : BitVec 5 := w.extractLsb' 0 5

/-- Format `CYLSEC` (R96): `head = v[7:5]`. -/
def cylSecHead (w : Word) : BitVec 3 := w.extractLsb' 5 3

/-- Format `CYLSEC` (R96): `cylinder = v[15:8]`. -/
def cylSecCylinder (w : Word) : BitVec 8 := w.extractLsb' 8 8

/-- Format `HEAD` (R97): `head = v[2:0]`. -/
def headField (w : Word) : BitVec 3 := w.extractLsb' 0 3

/-! ## The access words

An access is a list of 16-bit words (log 7): a descriptor, then operand words. In the descriptor bits 3:0 are the selector of R103 or
the tag of R104, R110; bits 7:4 name the format of the opcode table (0 REGOP, 1 CMDMOD, 2 CMD, 3 EVT, 4 ENV); bits 15:8 are 0. A bare
selector is thus itself a REGOP descriptor. For CMD and CMDMOD the table's match and mask apply to the operand word, the command word. -/

/-- Why the decoder rejects an access. -/
inductive DecodeError where
  /-- There is no descriptor. -/
  | emptyAccess
  /-- Bits 15:8 of the descriptor are not 0: the model's own layout (log 7). -/
  | reservedDescriptorBits
  /-- Selectors 11 to 15: no access to this block (R103). -/
  | unknownSelector
  /-- No CMD or CMDMOD view of that number (log 7). -/
  | unknownView
  /-- There is no fourth event kind (R104, R202). -/
  | unknownEvent
  /-- Only two environment operations exist (R110). -/
  | unknownEnvironmentOperation
  /-- Format nibbles 5 to 15: there are no other encoding spaces (R107). -/
  | unknownFormat
deriving DecidableEq, Repr

/-- The operand `v & 0xFFFF` of a write (R90, R120): the first operand word. Words above it are the bits above bit 15, which are
ignored (R106); a missing operand reads as 0 (log 29). -/
def operandWord : List Word → Word
  | [] => 0
  | w :: _ => w

/-- The signed operand of `seekBy`: little-endian words in two's complement, of any length (log 28). -/
def intOfWords : List Word → Int
  | [] => 0
  | [w] => w.toInt
  | w :: v :: ws => (w.toNat : Int) + 65536 * intOfWords (v :: ws)

/-- The words of a signed operand. `fuel` bounds their number; the magnitude of the operand is enough. -/
def wordsOfIntFuel : Nat → Int → List Word
  | 0, d => [BitVec.ofInt 16 d]
  | fuel + 1, d =>
    if -32768 ≤ d ∧ d < 32768 then [BitVec.ofInt 16 d]
    else BitVec.ofInt 16 d :: wordsOfIntFuel fuel (d / 65536)

/-- The operand words of `seekBy` (log 28). -/
def wordsOfInt (d : Int) : List Word := wordsOfIntFuel d.natAbs d

/-- REGOP: the selectors of R103. -/
def decodeRegOp (selector : Nat) (v : Word) : Except DecodeError Instr :=
  match selector with
  | 0 => .ok (.writeCommand v)
  | 1 => .ok (.writeHead v)
  | 2 => .ok (.writeCylinderSector v)
  | 3 => .ok (.writeSerialLow v)
  | 4 => .ok (.writeSerialHigh v)
  | 5 => .ok (.writeBlockNumber v)
  | 6 => .ok (.writeHeaderAddrLow v)
  | 7 => .ok (.writeHeaderAddrHigh v)
  | 8 => .ok (.writeDataBufferAddrLow v)
  | 9 => .ok (.writeDataBufferAddrHigh v)
  | 10 => .ok .readStatus
  | _ => .error .unknownSelector

/-- CMDMOD: a command word seen through its step bit (tag 0) or its direction bit (tag 1) (R93). -/
def decodeModifier (view : Nat) (w : Word) : Except DecodeError Instr :=
  match view with
  | 0 => .ok (if stepBit w then .stepSet w else .stepRelease w)
  | 1 => .ok (if dirBit w then .dirAway w else .dirIn w)
  | _ => .error .unknownView

/-- CMD: a command word seen through its code (R92). -/
def decodeCommand (view : Nat) (w : Word) : Except DecodeError Instr :=
  match view with
  | 0 =>
    .ok (match commandOf w with
      | .idle => .idle w
      | .readChk => .readChk w
      | .readDiag => .readDiag w
      | .writeChk => .writeChk w
      | .writeFirst => .writeFirst w
      | .format => .format w
      | .seek => .seek w
      | .reset => .cmdReset w)
  | _ => .error .unknownView

/-- EVT: the event tags of R104. -/
def decodeEvent (tag : Nat) : Except DecodeError Instr :=
  match tag with
  | 0 => .ok .busyDone
  | 1 => .ok .indexStart
  | 2 => .ok .indexEnd
  | _ => .error .unknownEvent

/-- ENV: the environment tags of R110. -/
def decodeEnvironment (tag : Nat) (operands : List Word) : Except DecodeError Instr :=
  match tag with
  | 0 => .ok .envReset
  | 1 => .ok (.seekBy (intOfWords operands))
  | _ => .error .unknownEnvironmentOperation

/-- The decoder of one access: total, rejecting by name. -/
def decode : List Word → Except DecodeError Instr
  | [] => .error .emptyAccess
  | d :: operands =>
    if d.extractLsb' 8 8 ≠ 0 then .error .reservedDescriptorBits
    else
      match (d.extractLsb' 4 4).toNat with
      | 0 => decodeRegOp (d.extractLsb' 0 4).toNat (operandWord operands)
      | 1 => decodeModifier (d.extractLsb' 0 4).toNat (operandWord operands)
      | 2 => decodeCommand (d.extractLsb' 0 4).toNat (operandWord operands)
      | 3 => decodeEvent (d.extractLsb' 0 4).toNat
      | 4 => decodeEnvironment (d.extractLsb' 0 4).toNat operands
      | _ => .error .unknownFormat

/-- The encoder: the access words of an instruction, written from the tables of R92, R93, R103, R104, R110 (log 7). -/
def encode : Instr → List Word
  | .idle w => [0x0020, w]
  | .readChk w => [0x0020, w]
  | .readDiag w => [0x0020, w]
  | .writeChk w => [0x0020, w]
  | .writeFirst w => [0x0020, w]
  | .format w => [0x0020, w]
  | .seek w => [0x0020, w]
  | .cmdReset w => [0x0020, w]
  | .stepSet w => [0x0010, w]
  | .stepRelease w => [0x0010, w]
  | .dirIn w => [0x0011, w]
  | .dirAway w => [0x0011, w]
  | .writeCommand v => [0x0000, v]
  | .writeHead v => [0x0001, v]
  | .writeCylinderSector v => [0x0002, v]
  | .writeSerialLow v => [0x0003, v]
  | .writeSerialHigh v => [0x0004, v]
  | .writeBlockNumber v => [0x0005, v]
  | .writeHeaderAddrLow v => [0x0006, v]
  | .writeHeaderAddrHigh v => [0x0007, v]
  | .writeDataBufferAddrLow v => [0x0008, v]
  | .writeDataBufferAddrHigh v => [0x0009, v]
  | .readStatus => [0x000A]
  | .busyDone => [0x0030]
  | .indexStart => [0x0031]
  | .indexEnd => [0x0032]
  | .envReset => [0x0040]
  | .seekBy d => 0x0041 :: wordsOfInt d

/-! ## The opcode table's numbering of bits -/

/-- The first `count` 16-bit words of `n`, the least significant first. -/
def wordsOfNat : Nat → Nat → List Word
  | 0, _ => []
  | count + 1, n => BitVec.ofNat 16 n :: wordsOfNat count (n / 65536)

/-- The access a table row stands for, where the row has `nbits` bits and they are those of `w` (log 7). The 16-bit rows, CMD and CMDMOD,
give a command word: it is the operand of the access that carries it (R91, R103), seen through its code. All other rows give the
access itself from bit 0 of the descriptor on, every bit above `nbits` being 0: the descriptor and one operand word at least. -/
def tableWords (nbits w : Nat) : List Word :=
  if nbits = 16 then [0x0020, BitVec.ofNat 16 w]
  else wordsOfNat (max 2 ((nbits + 15) / 16)) (w % 2 ^ nbits)

/-- What the decoder reads from an access with these bits. -/
def decodeTableWord (nbits w : Nat) : Option Instr := (decode (tableWords nbits w)).toOption

end Sys2Proof
end

