-- ==== Sys2Proof/Machine/State.lean ====
section
/-! DEFINITION. The state of the block (10_state R20), the reasons a step can stop, construction (70_reset R250) and `State.reset`. -/

namespace Sys2Proof.Machine

/-- A sector address `(cylinder, head, sector)`, as wide as the target registers (R69(c)). -/
structure SectorAddr where
  cylinder : BitVec 8
  head : BitVec 3
  sector : BitVec 5
deriving DecidableEq, Repr

/-- A sector: header bytes and data bytes, both indexed from 0 (R63). -/
structure Sector where
  header : List Byte
  data : List Byte
deriving DecidableEq, Repr

/-- The memory behind the Memory Port (R42, R61): word address and word, in the canonical form `Memory.wf`. The cell is a WORD, the
port's only unit (R65; log 6). -/
abbrev Memory := List (Nat × Word)

/-- The disk image behind the Disk Storage Port (R43, R62): sector key (`SectorAddr.key`) and sector, in the canonical form `Disk.wf`. -/
abbrev Disk := List (Nat × Sector)

/-- `reg.controllerStatus` (R30). -/
inductive ControllerStatus where
  | done
  | busy
deriving DecidableEq, Repr

/-- `reg.seekState` (R36). -/
inductive SeekState where
  | waitForStepSet
  | waitForStepRelease
  | seekComplete
deriving DecidableEq, Repr

/-- The kind of a scheduled event (R38, R104). -/
inductive EventKind where
  | busyDone
  | indexStart
  | indexEnd
deriving DecidableEq, Repr

/-- A scheduled event `(due, kind)` (R38). -/
structure Event where
  due : Nat
  kind : EventKind
deriving DecidableEq, Repr

/-- A call on the Interrupt Port (R40). -/
inductive IrqCall where
  | raise
  | clear
deriving DecidableEq, Repr

/-- A record of the diagnostic trace (R41, D26). -/
inductive LogEntry where
  | unhandled (code : BitVec 3)
deriving DecidableEq, Repr

/-- The ten host-written registers (R21 to R23, R25 to R28). The address halves hold the DECODED values (R27, R28). -/
structure HostRegs where
  cylinder : BitVec 8
  head : BitVec 3
  sector : BitVec 5
  serialNumberLow : Word
  serialNumberHigh : Word
  blockNumber : Word
  headerAddressLow : Word
  headerAddressHigh : Word
  dataBufferLow : Word
  dataBufferHigh : Word
deriving DecidableEq, Repr

/-- The status field and the five flags (R30 to R35). -/
structure StatusFields where
  controllerStatus : ControllerStatus
  index : Bool
  trackZero : Bool
  driveFault : Bool
  seekComplete : Bool
  unitReady : Bool
deriving DecidableEq, Repr

/-- What an agent outside the block does next (R9; log 10). -/
inductive Input where
  /-- An access, in words (log 7): a register operation of the host or an operation of the environment. -/
  | access (words : List Word)
  /-- Time passes until `t` (R207; R108's notation `advance t`; log 11). -/
  | advance (t : Nat)
  /-- Another agent stores a word behind the Memory Port (R61(b), R9; log 21). -/
  | memStore (address : Addr) (word : Word)
deriving DecidableEq, Repr

/-- Why the machine stops. The block itself raises no exception (R220), so no instruction's meaning faults. -/
inductive Fault where
  /-- Raised by `step` alone, in a state with nothing pending and no input: no agent can take a step. Safe, and never reached (R47,
  R212; log 22). -/
  | quiescent
deriving DecidableEq, Repr

/-- Why a step has no meaning. -/
inductive Refusal where
  /-- Raised by `exec` for an instruction that has no meaning yet. Safe. -/
  | notModelled (mnemonic : String)
  /-- Raised by the five block commands when the target is outside `DiskValid`: the spec refuses it (R77, R186, R263(a)). Safe. -/
  | diskAddressInvalid
  /-- Raised by the five block commands when a buffer address is outside `MemValid`: the spec refuses it (R77, R263(b)). Safe. -/
  | memoryAddressInvalid
  /-- Raised by `step` for words that are no access to this block (R103, R104, R107; log 9). Safe. -/
  | undecodable (reason : DecodeError)
  /-- Raised by `step` for an event among the inputs: only the scheduler delivers an event, once and when due (R201, R206; log 9).
  Safe. -/
  | eventFromInput
deriving DecidableEq, Repr

/-- The state of the block and of what stands behind its ports (R20). -/
structure State where
  /-- The parameters of R5; no step writes them (log 2). -/
  params : Params
  /-- The host-written registers. -/
  regs : HostRegs
  /-- `reg.physicalCylinder` (R24). -/
  physicalCylinder : Nat
  /-- The status field and the flags. -/
  status : StatusFields
  /-- `reg.seekState` (R36). -/
  seekState : SeekState
  /-- `reg.seekData`, the retained command word (R37). -/
  seekData : Word
  /-- `reg.pending` (R38), sorted by due time and kind so that equal multisets are equal lists (log 13). -/
  pending : List Event
  /-- `reg.now` (R39). -/
  now : Nat
  /-- `reg.irqLine` (R40). -/
  irqLine : Bool
  /-- `reg.irqTrace` (R40), oldest first. -/
  irqTrace : List (Nat × IrqCall)
  /-- `reg.log` (R41), oldest first. -/
  log : List LogEntry
  /-- `mem` (R42). -/
  mem : Memory
  /-- `disk` (R43). -/
  disk : Disk
  /-- MODEL'S OWN: what the agents outside do next, the next one first (log 10). -/
  input : List Input
  /-- MODEL'S OWN: the words `readStatus` returned, with the time, oldest first (R11, R130; log 15). -/
  statusReads : List (Nat × Word)
  /-- MODEL'S OWN: how many free choices among equal due times were made (R209; log 12). -/
  tieCount : Nat
deriving DecidableEq, Repr

/-- Construction (R250), the first column of R50's table. What the spec leaves open is an argument: the parameters, the unspecified
host-written registers, `DISK_INIT` and the memory behind the port. -/
def State.construct (p : Params) (r : HostRegs) (image : Disk) (memory : Memory) : State where
  params := p
  regs := r
  physicalCylinder := 0
  status :=
    { controllerStatus := .done
      index := true
      trackZero := true
      driveFault := false
      seekComplete := false
      unitReady := Config.unitReadyReset }
  seekState := .waitForStepSet
  seekData := 0
  pending := [⟨Config.indexPulseNs, .indexEnd⟩]
  now := 0
  irqLine := false
  irqTrace := []
  log := []
  mem := memory
  disk := image
  input := []
  statusReads := []
  tieCount := 0

/-- DESIGN CHOICE (log 1), unsafe: the host-written registers, whose values after construction the spec leaves unspecified. -/
def HostRegs.zero : HostRegs := ⟨0, 0, 0, 0, 0, 0, 0, 0, 0, 0⟩

/-- The machine right after construction with the default parameters (log 2, log 3), zero registers (log 1) and nothing listed in
memory or on disk (log 4, log 5). -/
def State.reset : State := State.construct Params.default HostRegs.zero [] []

end Sys2Proof.Machine
end

