-- ==== Sys2Proof/Machine/Sparse.lean ====
section
/-! DEFINITION. Sparse stores in one canonical form: the memory behind the Memory Port and the disk image behind the Disk Storage Port. -/

namespace Sys2Proof.Machine

/-- What a sparse store holds at key `k`; an unlisted key reads as `d`. -/
def sparseGet {V : Type} (d : V) : List (Nat × V) → Nat → V
  | [], _ => d
  | (k', v) :: rest, k => if k' = k then v else sparseGet d rest k

/-- A sparse store with `v` at key `k`. Writing what an unlisted key reads as removes the entry. -/
def sparseSet {V : Type} [DecidableEq V] (d : V) : List (Nat × V) → Nat → V → List (Nat × V)
  | [], k, v => if v = d then [] else [(k, v)]
  | (k', v') :: rest, k, v =>
    if k < k' then (if v = d then (k', v') :: rest else (k, v) :: (k', v') :: rest)
    else if k' = k then (if v = d then rest else (k, v) :: rest)
    else (k', v') :: sparseSet d rest k v

/-- The canonical form from key `from` on: keys strictly rising, none at or above `bound`, no entry equal to the default. -/
def sparseWf {V : Type} [DecidableEq V] (d : V) (bound : Nat) : Nat → List (Nat × V) → Bool
  | _, [] => true
  | least, (k, v) :: rest => decide (least ≤ k) && decide (k < bound) && decide (v ≠ d) && sparseWf d bound (k + 1) rest

/-! ## The Memory Port (R61) -/

/-- What a word that nothing has written reads as: DESIGN CHOICE (log 4), unsafe. -/
def Memory.unwritten : Word := 0

/-- The canonical form of the memory: every key is a 32-bit word address. -/
def Memory.wf (m : Memory) : Bool := sparseWf Memory.unwritten (2 ^ 32) 0 m

/-- `MemRead(addr, 1)` (R61(b)). -/
def Memory.read (m : Memory) (a : Addr) : Word := sparseGet Memory.unwritten m a.toNat

/-- `MemWrite(addr, 1, w)` (R61(d)). -/
def Memory.write (m : Memory) (a : Addr) (w : Word) : Memory := sparseSet Memory.unwritten m a.toNat w

/-- Stores words at `a`, `a + 1`, ... in ascending order, modulo 2^32 (R67, R181). -/
def Memory.storeWords (m : Memory) (a : Addr) : List Word → Memory
  | [] => m
  | w :: ws => Memory.storeWords (m.write a w) (a + 1) ws

/-- Fetches `n` words from `a` on, in ascending order, modulo 2^32 (R67, R182). -/
def Memory.loadWords (m : Memory) (a : Addr) : Nat → List Word
  | 0 => []
  | n + 1 => m.read a :: Memory.loadWords m (a + 1) n

/-! ## The Disk Storage Port (R62) -/

/-- The key of a sector in the disk list: a number of 16 bits, one for each address. -/
def SectorAddr.key (a : SectorAddr) : Nat := a.cylinder.toNat * 256 + a.head.toNat * 32 + a.sector.toNat

/-- What a sector that the image does not list holds: DESIGN CHOICE (log 5), unsafe. -/
def Sector.blank (p : Params) : Sector := ⟨List.replicate p.headerBytes 0, List.replicate p.dataBytes 0⟩

/-- The canonical form of the disk. -/
def Disk.wf (p : Params) (d : Disk) : Bool := sparseWf (Sector.blank p) (2 ^ 16) 0 d

/-- `DiskGet(c, h, s)` (R62(a)). -/
def Disk.get (p : Params) (d : Disk) (a : SectorAddr) : Sector := sparseGet (Sector.blank p) d a.key

/-- `DiskSet(c, h, s, sec)` (R62(c)). -/
def Disk.set (p : Params) (d : Disk) (a : SectorAddr) (sec : Sector) : Disk := sparseSet (Sector.blank p) d a.key sec

/-! ## Byte order (R64) -/

/-- `Words(b)` (R64): two bytes a word, the first byte in bits 7:0. -/
def wordsOfBytes : List Byte → List Word
  | lo :: hi :: rest => ((hi.setWidth 16 <<< 8) ||| lo.setWidth 16) :: wordsOfBytes rest
  | _ => []

/-- `Bytes(w)` (R64). -/
def bytesOfWords : List Word → List Byte
  | [] => []
  | w :: rest => w.setWidth 8 :: (w >>> 8).setWidth 8 :: bytesOfWords rest

end Sys2Proof.Machine
end

