-- ==== Sys2Proof/Machine/Flags.lean ====
section
/-! DEFINITION. The status word, the flag rules and the flag reset (30_encoding R94, R95; 10_state R30 to R35; 41_commands R149). -/

namespace Sys2Proof.Machine

/-- `Code(controllerStatus)` (R95). -/
def statusCode (p : Params) : ControllerStatus → BitVec 3
  | .done => p.statusDone
  | .busy => p.statusBusy

/-- A flag as a word with the flag at bit `i`. -/
def flagAt (i : Nat) (b : Bool) : Word := (BitVec.ofBool b).setWidth 16 <<< i

/-- `StatusWord()` (R94). Bits 15:8 are 0. -/
def statusWord (p : Params) (st : StatusFields) : Word :=
  (statusCode p st.controllerStatus).setWidth 16 ||| flagAt 3 st.index ||| flagAt 4 st.trackZero ||| flagAt 5 st.driveFault |||
    flagAt 6 st.seekComplete ||| flagAt 7 st.unitReady

/-- `trackZero` is 1 exactly when the position is 0 (R32, R45). -/
def trackZeroOf (cylinder : Nat) : Bool := decide (cylinder = 0)

/-- The clamp of `SeekTo` (R166): formed in unbounded integers, then cut to `[0, CYL_COUNT - 1]`. -/
def clampCylinder (p : Params) (c : Int) : Nat :=
  if c < 0 then 0 else if c > (p.cylCount : Int) - 1 then p.cylCount - 1 else c.toNat

/-- The flags after `ResetFlagsAndPosition()` (R149). -/
def resetStatus : StatusFields where
  controllerStatus := .done
  index := false
  trackZero := true
  driveFault := false
  seekComplete := false
  unitReady := Config.unitReadyReset

end Sys2Proof.Machine
end

