-- ==== Sys2Proof/Machine/Operands.lean ====
section
/-! DEFINITION. The operands: the address transforms (30_encoding R99 to R102), the combined addresses (10_state R29), the validity of
what a block command addresses (20_memory R77) and its buffers (43_block_transfer R180). -/

namespace Sys2Proof.Machine

/-- The image the configuration proposes for a word: the table's, or the word xor the mask. -/
def unfrobRaw (p : Params) (x : Word) : Word :=
  match p.unfrobTable.lookup x with
  | some y => y
  | none => x ^^^ p.unfrobMask

/-- `unfrob` (R102), the low-address transform. A word whose proposed image does not map back stays as it is, so the function is an
involution for every value of the parameters (R6(d)), and every involution on 16 bits is one of its instances (log 16). -/
def unfrob (p : Params) (x : Word) : Word :=
  if unfrobRaw p (unfrobRaw p x) = x then unfrobRaw p x else x

/-- Format `ADDRHI` (R100): the high half is stored inverted. -/
def invertHigh (x : Word) : Word := ~~~x

/-- The combined address `low | (high << 16)` (R29, R101). -/
def combine (low high : Word) : Addr := low.setWidth 32 ||| (high.setWidth 32 <<< 16)

/-- `HeaderAddress()` (R29). -/
def headerAddress (s : State) : Addr := combine s.regs.headerAddressLow s.regs.headerAddressHigh

/-- `DataAddress()` (R29). -/
def dataAddress (s : State) : Addr := combine s.regs.dataBufferLow s.regs.dataBufferHigh

/-- The target `(c, h, s)` of a block command: the LOGICAL address registers (R180). -/
def target (s : State) : SectorAddr := ⟨s.regs.cylinder, s.regs.head, s.regs.sector⟩

/-- `nd`, the data buffer's length in words (R180). -/
def dataWords (p : Params) : Nat := p.dataBytes / 2

/-- `nh`, the header buffer's length in words (R180). -/
def headerWords (p : Params) : Nat := p.headerBytes / 2

/-- Whether a box holds a sector address. -/
def zoneHolds (z : SectorZone) (a : SectorAddr) : Bool :=
  decide (z.cylinderFrom ≤ a.cylinder.toNat) && decide (a.cylinder.toNat ≤ z.cylinderTo) &&
    decide (z.headFrom ≤ a.head.toNat) && decide (a.head.toNat ≤ z.headTo) &&
    decide (z.sectorFrom ≤ a.sector.toNat) && decide (a.sector.toNat ≤ z.sectorTo)

/-- `DiskValid(c, h, s)` (R5). -/
def diskValid (p : Params) (a : SectorAddr) : Bool := p.sectorZones.any (fun z => zoneHolds z a)

/-- `MemValid(a)` (R5). -/
def memValid (p : Params) (a : Addr) : Bool := p.memRanges.any (fun r => decide (r.first ≤ a.toNat) && decide (a.toNat ≤ r.last))

/-- `MemValid` of every address of a buffer of `n` words at `a` (R77). -/
def bufferValid (p : Params) (a : Addr) : Nat → Bool
  | 0 => true
  | n + 1 => memValid p a && bufferValid p (a + 1) n

/-- `PORT_MAP` (R5): the bus address of the register with this selector of R103; there are no other selectors. No meaning reads it: an
access names its register by the selector (D21; log 30). -/
def busAddress (p : Params) (selector : Nat) : Option Nat :=
  match selector with
  | 0 => some p.portMap.command
  | 1 => some p.portMap.head
  | 2 => some p.portMap.cylinderSector
  | 3 => some p.portMap.serialLow
  | 4 => some p.portMap.serialHigh
  | 5 => some p.portMap.blockNumber
  | 6 => some p.portMap.headerAddrLow
  | 7 => some p.portMap.headerAddrHigh
  | 8 => some p.portMap.dataBufferAddrLow
  | 9 => some p.portMap.dataBufferAddrHigh
  | 10 => some p.portMap.status
  | _ => none

end Sys2Proof.Machine
end

