-- ==== Sys2Proof/Machine/Ops.lean ====
section
/-! DEFINITION. The shared operations over State: the interrupt line, the scheduler, entering Busy, the seek machine and the block
transfer engine.

The block takes no exception and returns from none (60_exceptions R220, R230): what stands in that place is the interrupt line it
raises, ONE operation `irqRaise`, and `irqClear` beside it (log 23). -/

namespace Sys2Proof.Machine

/-- What a meaning answers. -/
abbrev Result := Host.Outcome State Fault Refusal

/-- Runs `f` on the next state, if there is one. -/
def andThen (r : Result) (f : State → State) : Result :=
  match r with
  | .next s => .next (f s)
  | .fault x => .fault x
  | .refused x => .refused x

/-! ## The interrupt line (R40, R227) -/

/-- `IrqRaise()`: the line goes to 1 and the call is recorded (R40). -/
def irqRaise (s : State) : State := { s with irqLine := true, irqTrace := s.irqTrace ++ [(s.now, .raise)] }

/-- `IrqClear()`: the line goes to 0 and the call is recorded (R40). -/
def irqClear (s : State) : State := { s with irqLine := false, irqTrace := s.irqTrace ++ [(s.now, .clear)] }

/-- `Log(Unhandled(code))` (R41, R147). -/
def logUnhandled (code : BitVec 3) (s : State) : State := { s with log := s.log ++ [.unhandled code] }

/-! ## The scheduler (R201) -/

/-- The tags of R104, used only to order events with the same due time in the list (log 13). -/
def EventKind.tag : EventKind → Nat
  | .busyDone => 0
  | .indexStart => 1
  | .indexEnd => 2

/-- The order of the pending list: by due time, then by tag. -/
def Event.before (e f : Event) : Bool := decide (e.due < f.due) || (decide (e.due = f.due) && decide (e.kind.tag ≤ f.kind.tag))

/-- The multiset `pending + { e }` as a sorted list (log 13). -/
def insertEvent (e : Event) : List Event → List Event
  | [] => [e]
  | f :: rest => if e.before f then e :: f :: rest else f :: insertEvent e rest

/-- `Schedule(delay, kind)` (R201). -/
def schedule (delay : Nat) (kind : EventKind) (s : State) : State :=
  { s with pending := insertEvent ⟨s.now + delay, kind⟩ s.pending }

/-- `EnterBusy()` (R200): idempotent while Busy. -/
def enterBusy (s : State) : State :=
  match s.status.controllerStatus with
  | .busy => s
  | .done => schedule Config.busyNs .busyDone { s with status := { s.status with controllerStatus := .busy } }

/-- `ResetFlagsAndPosition()` (R149). -/
def resetFlagsAndPosition (s : State) : State := { s with status := resetStatus, physicalCylinder := 0 }

/-! ## The seek machine (42_seek) -/

/-- `SeekTo(c)`, the clamped move (R166). -/
def seekTo (c : Int) (s : State) : State :=
  { s with
    physicalCylinder := clampCylinder s.params c
    status := { s.status with trackZero := trackZeroOf (clampCylinder s.params c) } }

/-- `SingleSeek()` (R165): the direction is bit 3 of the retained word, at the time of the move. -/
def singleSeek (s : State) : State :=
  if dirBit s.seekData then seekTo ((s.physicalCylinder : Int) + 1) s else seekTo ((s.physicalCylinder : Int) - 1) s

/-- `SeekClock()` (R161, R162, R163): the state after the transition, or none where no transition is enabled. -/
def seekClock (s : State) : Option State :=
  match s.seekState with
  | .waitForStepSet =>
    if stepBit s.seekData then
      some { s with status := { s.status with seekComplete := false }, seekState := .waitForStepRelease }
    else none
  | .waitForStepRelease => if stepBit s.seekData then none else some { s with seekState := .seekComplete }
  | .seekComplete =>
    let moved := singleSeek s
    some { irqRaise { moved with status := { moved.status with seekComplete := true } } with seekState := .waitForStepSet }

/-- The loop of `SeekRun()`, at most `fuel` transitions. -/
def seekLoop : Nat → State → State
  | 0, s => s
  | fuel + 1, s =>
    match seekClock s with
    | some t => seekLoop fuel t
    | none => s

/-- `SeekRun()` (R164): clocked until no transition is enabled, which takes at most two transitions from any state. -/
def seekRun (s : State) : State := seekLoop 3 s

/-- Step 2 of a command write (R140): the raw word is retained (R37). -/
def retain (w : Word) (s : State) : State := { s with seekData := w }

/-! ## The block transfer engine (43_block_transfer) -/

/-- The target and every buffer named are valid, or the command is refused (R77, R186). `withHeader` says whether the header buffer
is used at all. -/
def checkTransfer (withHeader : Bool) (s : State) : Option Refusal :=
  if diskValid s.params (target s) = false then some .diskAddressInvalid
  else if bufferValid s.params (dataAddress s) (dataWords s.params) = false then some .memoryAddressInvalid
  else if (withHeader && !bufferValid s.params (headerAddress s) (headerWords s.params)) = true then some .memoryAddressInvalid
  else none

/-- The memory after a read command: the data words, then the header words, ascending (R75, R181). -/
def readTransferMemory (s : State) : Memory :=
  let sec := s.disk.get s.params (target s)
  (s.mem.storeWords (dataAddress s) (wordsOfBytes sec.data)).storeWords (headerAddress s) (wordsOfBytes sec.header)

/-- `ReadBlock()` (R181). -/
def readBlock (s : State) : Result :=
  match checkTransfer true s with
  | some r => .refused r
  | none => .next (enterBusy { s with mem := readTransferMemory s })

/-- The sector a write command commits (R182). -/
def writeTransferSector (writeHeader : Bool) (s : State) : Sector where
  header :=
    if writeHeader then bytesOfWords (s.mem.loadWords (headerAddress s) (headerWords s.params))
    else (s.disk.get s.params (target s)).header
  data := bytesOfWords (s.mem.loadWords (dataAddress s) (dataWords s.params))

/-- `WriteBlock(writeHeader)` (R182). -/
def writeBlock (writeHeader : Bool) (s : State) : Result :=
  match checkTransfer writeHeader s with
  | some r => .refused r
  | none => .next (enterBusy { s with disk := s.disk.set s.params (target s) (writeTransferSector writeHeader s) })

/-- `FormatBlock()` (R183). -/
def formatBlock (s : State) : Result := writeBlock true s

end Sys2Proof.Machine
end

