-- ==== Sys2Proof/Machine/Commands.lean ====
section
/-! DEFINITION. The command register (41_commands): the eight dispatch arms, the command write, and the meanings of the CMD rows and of
`writeCommand`. -/

namespace Sys2Proof.Machine

/-- `Idle` (R141). -/
def dispatchIdle (s : State) : Result := .next (irqClear s)

/-- `ReadChk` (R142). -/
def dispatchReadChk (s : State) : Result := readBlock s

/-- `ReadDiag` (R143): the same procedure as `ReadChk`. -/
def dispatchReadDiag (s : State) : Result := readBlock s

/-- `WriteChk` (R144): keeps the header on disk. -/
def dispatchWriteChk (s : State) : Result := writeBlock false s

/-- `WriteFirst` (R145): also writes the header. -/
def dispatchWriteFirst (s : State) : Result := writeBlock true s

/-- `Format` (R146). -/
def dispatchFormat (s : State) : Result := formatBlock s

/-- `Seek` (R147): logged, nothing else. -/
def dispatchSeek (s : State) : Result := .next (logUnhandled 6 s)

/-- `Reset` (R148): the flags and the position, then Busy; the seek state, the registers and the line stay. -/
def dispatchReset (s : State) : Result := .next (enterBusy (resetFlagsAndPosition s))

/-- `Dispatch(c)` (R150): an arm for each of the eight codes, whatever the state. -/
def dispatch (c : Command) (s : State) : Result :=
  match c with
  | .idle => dispatchIdle s
  | .readChk => dispatchReadChk s
  | .readDiag => dispatchReadDiag s
  | .writeChk => dispatchWriteChk s
  | .writeFirst => dispatchWriteFirst s
  | .format => dispatchFormat s
  | .seek => dispatchSeek s
  | .reset => dispatchReset s

/-- One command write (R140): the dispatched command, then the word is retained, then the seek machine is clocked with it. A refused
command refuses the whole write. -/
def commandWrite (dispatched : Result) (w : Word) : Result := andThen dispatched (fun t => seekRun (retain w t))

/-- `writeCommand(v)` (R140). -/
def execWriteCommand (v : Word) (s : State) : Result := commandWrite (dispatch (commandOf v) s) v

/-- `Idle` (R141), as the command write that carries it (R140; log 8). -/
def execIdle (w : Word) (s : State) : Result := commandWrite (dispatchIdle s) w

/-- `ReadChk` (R142). -/
def execReadChk (w : Word) (s : State) : Result := commandWrite (dispatchReadChk s) w

/-- `ReadDiag` (R143). -/
def execReadDiag (w : Word) (s : State) : Result := commandWrite (dispatchReadDiag s) w

/-- `WriteChk` (R144). -/
def execWriteChk (w : Word) (s : State) : Result := commandWrite (dispatchWriteChk s) w

/-- `WriteFirst` (R145). -/
def execWriteFirst (w : Word) (s : State) : Result := commandWrite (dispatchWriteFirst s) w

/-- `Format` (R146). -/
def execFormat (w : Word) (s : State) : Result := commandWrite (dispatchFormat s) w

/-- `Seek` (R147). -/
def execSeek (w : Word) (s : State) : Result := commandWrite (dispatchSeek s) w

/-- `Reset` (R148). -/
def execCmdReset (w : Word) (s : State) : Result := commandWrite (dispatchReset s) w

end Sys2Proof.Machine
end

