-- ==== Sys2Proof/Machine/Environment.lean ====
section
/-! DEFINITION. What the environment does: `reset()` (70_reset R251), `seekBy` (42_seek R167), the passing of time (44_events R207) and
stores of other agents behind the Memory Port (20_memory R61). -/

namespace Sys2Proof.Machine

/-- `reset()` (R251): flags, position, seek state and retained word; nothing pending is cancelled, the line and the registers stay. -/
def execEnvReset (s : State) : Result :=
  .next { resetFlagsAndPosition s with seekState := .waitForStepSet, seekData := 0 }

/-- `seekBy(delta)` (R167): the clamped move and `trackZero`, no more. -/
def execSeekBy (delta : Int) (s : State) : Result := .next (seekTo ((s.physicalCylinder : Int) + delta) s)

/-- The input `advance t` at the front of the inputs, in a state where nothing is due (R207, R108; log 11). Time goes to `t`, or to the
first event due before `t`, which must be delivered first; a time that is not ahead is dropped, since time never goes back (R39). -/
def advanceTime (t : Nat) (rest : List Input) (s : State) : State :=
  if t ≤ s.now then { s with input := rest }
  else
    match s.pending with
    | [] => { s with now := t, input := rest }
    | e :: _ => if e.due < t then { s with now := e.due } else { s with now := t, input := rest }

/-- With no input left, time runs to the earliest pending event (R207, R212; log 10). -/
def advanceToNextEvent (s : State) : Result :=
  match s.pending with
  | [] => .fault .quiescent
  | e :: _ => .next { s with now := e.due }

/-- The input `memStore a w`: a word stored behind the Memory Port by another agent (R61(b); log 21). -/
def externalStore (a : Addr) (w : Word) (rest : List Input) (s : State) : State :=
  { s with mem := s.mem.write a w, input := rest }

end Sys2Proof.Machine
end

