-- ==== Sys2Proof/Machine/Events.lean ====
section
/-! DEFINITION. The completion dispatcher's three handlers (44_events R202 to R205) and the scheduler's choice of the event to deliver
(R206, R209). -/

namespace Sys2Proof.Machine

/-- `OnBusyDone()` (R203): unconditional. -/
def execBusyDone (s : State) : Result :=
  .next (irqRaise { s with status := { s.status with controllerStatus := .done } })

/-- `OnIndexStart()` (R204). -/
def execIndexStart (s : State) : Result :=
  .next (schedule Config.indexPulseNs .indexEnd { s with status := { s.status with index := true } })

/-- `OnIndexEnd()` (R205). -/
def execIndexEnd (s : State) : Result :=
  .next (schedule Config.rotationNs .indexStart { s with status := { s.status with index := false } })

/-- `HandleEvent(kind)` (R202): the instruction that handles an event. -/
def eventInstr : EventKind → Instr
  | .busyDone => .busyDone
  | .indexStart => .indexStart
  | .indexEnd => .indexEnd

/-- How many events at the front of a sorted list have the due time `due`. -/
def tiesAt (due : Nat) (events : List Event) : Nat := (events.takeWhile (fun e => decide (e.due = due))).length

/-- Which of `n` events with the same due time is delivered: the only one, or any of them (R209; log 12). -/
def tieChoice (n count : Nat) : Nat := if n ≤ 1 then 0 else Config.tieOrder count % n

/-- `Deliver` (R206), up to the handler: where an event is due, its kind and the state with that event taken out of `pending`. The
list is sorted, so its front has the least due time. -/
def takeDue (s : State) : Option (EventKind × State) :=
  match s.pending with
  | [] => none
  | e :: rest =>
    if e.due ≤ s.now then
      let n := tiesAt e.due (e :: rest)
      let i := tieChoice n s.tieCount
      some (((e :: rest).getD i e).kind,
        { s with
          pending := (e :: rest).eraseIdx i
          tieCount := if n ≤ 1 then s.tieCount else s.tieCount + 1 })
    else none

end Sys2Proof.Machine
end

