-- ==== Sys2Proof/Machine/Modifiers.lean ====
section
/-! DEFINITION. The CMDMOD rows (30_encoding R93, R110): a command word seen through its step bit or its direction bit. The word is
decoded twice, by the command decoder and by the seek machine, in the one command write that carries it (R140; log 8). -/

namespace Sys2Proof.Machine

/-- `StepSet` (R161): a command write with bit 4 = 1; in `WaitForStepSet` it clears `seekComplete` and goes on to `WaitForStepRelease`. -/
def execStepSet (w : Word) (s : State) : Result := commandWrite (dispatch (commandOf w) s) w

/-- `StepRelease` (R162, R163): a command write with bit 4 = 0; in `WaitForStepRelease` it moves one cylinder and raises the interrupt. -/
def execStepRelease (w : Word) (s : State) : Result := commandWrite (dispatch (commandOf w) s) w

/-- `DirIn` (R165): a command write with bit 3 = 0; a single seek it completes goes toward cylinder 0. -/
def execDirIn (w : Word) (s : State) : Result := commandWrite (dispatch (commandOf w) s) w

/-- `DirAway` (R165): a command write with bit 3 = 1; a single seek it completes goes away from cylinder 0. -/
def execDirAway (w : Word) (s : State) : Result := commandWrite (dispatch (commandOf w) s) w

end Sys2Proof.Machine
end

