-- ==== Sys2Proof/Machine/RegOps.lean ====
section
/-! DEFINITION. The nine plain register writes and the status read (40_register_ops R120 to R130). -/

namespace Sys2Proof.Machine

/-- `writeHead(v)` (R121). -/
def execWriteHead (v : Word) (s : State) : Result := .next { s with regs := { s.regs with head := headField v } }

/-- `writeCylinderSector(v)` (R122): all three target registers at once. -/
def execWriteCylinderSector (v : Word) (s : State) : Result :=
  .next { s with
    regs := { s.regs with sector := cylSecSector v, head := cylSecHead v, cylinder := cylSecCylinder v } }

/-- `writeSerialLow(v)` (R123). -/
def execWriteSerialLow (v : Word) (s : State) : Result := .next { s with regs := { s.regs with serialNumberLow := v } }

/-- `writeSerialHigh(v)` (R124). -/
def execWriteSerialHigh (v : Word) (s : State) : Result := .next { s with regs := { s.regs with serialNumberHigh := v } }

/-- `writeBlockNumber(v)` (R125). -/
def execWriteBlockNumber (v : Word) (s : State) : Result := .next { s with regs := { s.regs with blockNumber := v } }

/-- `writeHeaderAddrLow(v)` (R126): stored decoded. -/
def execWriteHeaderAddrLow (v : Word) (s : State) : Result :=
  .next { s with regs := { s.regs with headerAddressLow := unfrob s.params v } }

/-- `writeHeaderAddrHigh(v)` (R127): stored inverted. -/
def execWriteHeaderAddrHigh (v : Word) (s : State) : Result :=
  .next { s with regs := { s.regs with headerAddressHigh := invertHigh v } }

/-- `writeDataBufferAddrLow(v)` (R128): stored decoded. -/
def execWriteDataBufferAddrLow (v : Word) (s : State) : Result :=
  .next { s with regs := { s.regs with dataBufferLow := unfrob s.params v } }

/-- `writeDataBufferAddrHigh(v)` (R129): stored inverted. -/
def execWriteDataBufferAddrHigh (v : Word) (s : State) : Result :=
  .next { s with regs := { s.regs with dataBufferHigh := invertHigh v } }

/-- `readStatus()` (R130): no state of the block changes; the word returned goes to the host, whose reads `statusReads` records
(log 15). -/
def execReadStatus (s : State) : Result :=
  .next { s with statusReads := s.statusReads ++ [(s.now, statusWord s.params s.status)] }

end Sys2Proof.Machine
end

