-- ==== Sys2Proof/Machine/Dispatch.lean ====
section
/-! DEFINITION. What each instruction does: one arm per constructor of Instr, each a direct call of its meaning. -/

namespace Sys2Proof.Machine

def exec (i : Instr) (s : State) : Host.Outcome State Fault Refusal :=
  match i with
  | .idle w => Sys2Proof.Machine.execIdle w s
  | .readChk w => Sys2Proof.Machine.execReadChk w s
  | .readDiag w => Sys2Proof.Machine.execReadDiag w s
  | .writeChk w => Sys2Proof.Machine.execWriteChk w s
  | .writeFirst w => Sys2Proof.Machine.execWriteFirst w s
  | .format w => Sys2Proof.Machine.execFormat w s
  | .seek w => Sys2Proof.Machine.execSeek w s
  | .cmdReset w => Sys2Proof.Machine.execCmdReset w s
  | .stepSet w => Sys2Proof.Machine.execStepSet w s
  | .stepRelease w => Sys2Proof.Machine.execStepRelease w s
  | .dirIn w => Sys2Proof.Machine.execDirIn w s
  | .dirAway w => Sys2Proof.Machine.execDirAway w s
  | .writeCommand v => Sys2Proof.Machine.execWriteCommand v s
  | .writeHead v => Sys2Proof.Machine.execWriteHead v s
  | .writeCylinderSector v => Sys2Proof.Machine.execWriteCylinderSector v s
  | .writeSerialLow v => Sys2Proof.Machine.execWriteSerialLow v s
  | .writeSerialHigh v => Sys2Proof.Machine.execWriteSerialHigh v s
  | .writeBlockNumber v => Sys2Proof.Machine.execWriteBlockNumber v s
  | .writeHeaderAddrLow v => Sys2Proof.Machine.execWriteHeaderAddrLow v s
  | .writeHeaderAddrHigh v => Sys2Proof.Machine.execWriteHeaderAddrHigh v s
  | .writeDataBufferAddrLow v => Sys2Proof.Machine.execWriteDataBufferAddrLow v s
  | .writeDataBufferAddrHigh v => Sys2Proof.Machine.execWriteDataBufferAddrHigh v s
  | .readStatus => Sys2Proof.Machine.execReadStatus s
  | .busyDone => Sys2Proof.Machine.execBusyDone s
  | .indexStart => Sys2Proof.Machine.execIndexStart s
  | .indexEnd => Sys2Proof.Machine.execIndexEnd s
  | .envReset => Sys2Proof.Machine.execEnvReset s
  | .seekBy delta => Sys2Proof.Machine.execSeekBy delta s

end Sys2Proof.Machine
end

