-- ==== Sys2Proof/Machine/Fetch.lean ====
section
/-! DEFINITION. Reading the next instruction: from the access words at the front of the inputs, or from the event that is due. -/

namespace Sys2Proof.Machine

/-- The event kind an instruction handles, for the EVT rows (R104). -/
def eventKindOf : Instr → Option EventKind
  | .idle _ => none
  | .readChk _ => none
  | .readDiag _ => none
  | .writeChk _ => none
  | .writeFirst _ => none
  | .format _ => none
  | .seek _ => none
  | .cmdReset _ => none
  | .stepSet _ => none
  | .stepRelease _ => none
  | .dirIn _ => none
  | .dirAway _ => none
  | .writeCommand _ => none
  | .writeHead _ => none
  | .writeCylinderSector _ => none
  | .writeSerialLow _ => none
  | .writeSerialHigh _ => none
  | .writeBlockNumber _ => none
  | .writeHeaderAddrLow _ => none
  | .writeHeaderAddrHigh _ => none
  | .writeDataBufferAddrLow _ => none
  | .writeDataBufferAddrHigh _ => none
  | .readStatus => none
  | .busyDone => some .busyDone
  | .indexStart => some .indexStart
  | .indexEnd => some .indexEnd
  | .envReset => none
  | .seekBy _ => none

/-- The instruction of an access among the inputs. Words that are no access to this block are refused, and so are events: the
scheduler alone delivers those, from `pending` (R201, R206; log 9). -/
def fetchAccess (words : List Word) : Except Refusal Instr :=
  match decode words with
  | .error e => .error (.undecodable e)
  | .ok i =>
    match eventKindOf i with
    | some _ => .error .eventFromInput
    | none => .ok i

/-- The state in which these words are what runs next: an access goes to the front of the inputs; for the words of an event, which the
scheduler delivers, an event of that kind becomes due now (log 25). -/
def placeNext (words : List Word) (s : State) : State :=
  match (decode words).toOption.bind eventKindOf with
  | some k => { s with pending := insertEvent ⟨s.now, k⟩ s.pending }
  | none => { s with input := .access words :: s.input }

end Sys2Proof.Machine
end

