-- ==== Sys2Proof/Machine/Step.lean ====
section
/-! DEFINITION. One step of the machine. Which agent moves is read from State (00_scope R9; log 10). -/

namespace Sys2Proof.Machine

/-- A due event is delivered before anything else (44_events R206, R208); otherwise the front of the inputs happens; with no input
left, time runs to the earliest pending event (R207). -/
def step (s : State) : Host.Outcome State Fault Refusal :=
  match takeDue s with
  | some (kind, t) => exec (eventInstr kind) t
  | none =>
    match s.input with
    | [] => advanceToNextEvent s
    | .advance t :: rest => .next (advanceTime t rest s)
    | .memStore a w :: rest => .next (externalStore a w rest s)
    | .access words :: rest =>
      match fetchAccess words with
      | .error r => .refused r
      | .ok i => exec i { s with input := rest }

/-- `s` with the instruction whose table bits are `w` placed so that the next step runs it (log 25). In a state where an event is
already due, that event is delivered first, as R208 says. -/
def State.withFetchWord (s : State) (nbits w : Nat) : State := placeNext (tableWords nbits w) s

end Sys2Proof.Machine
end

