-- ==== Sys2Proof/Safety.lean ====
section
/-! DEFINITION. The terms the claims use: the invariant of the reachable states, what a block command may address, and what a run does. -/

namespace Sys2Proof.Machine

/-! ## The invariant -/

/-- Whether an event belongs to the index cycle (R234). -/
def isIndexEvent (e : Event) : Bool :=
  match e.kind with
  | .busyDone => false
  | .indexStart => true
  | .indexEnd => true

/-- Whether an event is a completion (R233). -/
def isCompletion (e : Event) : Bool := !isIndexEvent e

/-- The sector has the lengths of the geometry (R63). -/
def Sector.fits (p : Params) (sec : Sector) : Bool :=
  decide (sec.header.length = p.headerBytes) && decide (sec.data.length = p.dataBytes)

/-- What holds of every state that a run from construction reaches. -/
structure Inv (s : State) : Prop where
  /-- The parameters obey R6. -/
  params : s.params.wf
  /-- R45, R24: the head is on a cylinder of the drive. -/
  position : s.physicalCylinder < s.params.cylCount
  /-- R45, R32. -/
  trackZero : s.status.trackZero = decide (s.physicalCylinder = 0)
  /-- R49, R33. -/
  driveFault : s.status.driveFault = false
  /-- R49, R35. -/
  unitReady : s.status.unitReady = Config.unitReadyReset
  /-- R48: the seek machine rests in one of two states. -/
  seekState : s.seekState ≠ .seekComplete
  /-- R47: exactly one index event is pending. -/
  oneIndexEvent : (s.pending.filter isIndexEvent).length = 1
  /-- R47, R211: while `index` is 1 that event is the end of the pulse. -/
  indexEnds : s.status.index = true → ∃ e ∈ s.pending, e.kind = .indexEnd
  /-- R47, R200: while Busy a completion is pending. -/
  busyEnds : s.status.controllerStatus = .busy → ∃ e ∈ s.pending, e.kind = .busyDone
  /-- The list of pending events is in its canonical order (log 13). -/
  sorted : s.pending.Pairwise (fun e f => e.before f = true)
  /-- R206, R207: time has passed no pending event. -/
  notLate : ∀ e ∈ s.pending, s.now ≤ e.due
  /-- The memory is in its canonical form. -/
  memory : s.mem.wf = true
  /-- The disk is in its canonical form. -/
  disk : s.disk.wf s.params = true
  /-- R63: every sector listed has the lengths of the geometry. -/
  sectors : ∀ entry ∈ s.disk, entry.2.fits s.params = true

/-! ## Command words -/

/-- The command word an instruction writes, for the CMD and CMDMOD rows and `writeCommand` (R140). -/
def commandWord : Instr → Option Word
  | .idle w => some w
  | .readChk w => some w
  | .readDiag w => some w
  | .writeChk w => some w
  | .writeFirst w => some w
  | .format w => some w
  | .seek w => some w
  | .cmdReset w => some w
  | .stepSet w => some w
  | .stepRelease w => some w
  | .dirIn w => some w
  | .dirAway w => some w
  | .writeCommand v => some v
  | .writeHead _ => none
  | .writeCylinderSector _ => none
  | .writeSerialLow _ => none
  | .writeSerialHigh _ => none
  | .writeBlockNumber _ => none
  | .writeHeaderAddrLow _ => none
  | .writeHeaderAddrHigh _ => none
  | .writeDataBufferAddrLow _ => none
  | .writeDataBufferAddrHigh _ => none
  | .readStatus => none
  | .busyDone => none
  | .indexStart => none
  | .indexEnd => none
  | .envReset => none
  | .seekBy _ => none

/-- A buffer of `n` words at `a` lies in valid memory (R77). -/
def BufferMapped (p : Params) (a : Addr) (n : Nat) : Prop := ∀ i < n, memValid p (a + BitVec.ofNat 32 i) = true

/-- What `ReadChk`, `ReadDiag`, `WriteFirst` and `Format` need: the target and both buffers (R77, R254). -/
def FullTransferAllowed (s : State) : Prop :=
  diskValid s.params (target s) = true ∧ BufferMapped s.params (dataAddress s) (dataWords s.params) ∧
    BufferMapped s.params (headerAddress s) (headerWords s.params)

/-- What `WriteChk` needs: the target and the data buffer; the header address is not used (R144, R182). -/
def DataTransferAllowed (s : State) : Prop :=
  diskValid s.params (target s) = true ∧ BufferMapped s.params (dataAddress s) (dataWords s.params)

/-- When a command is not refused (R77, R263): the three commands that transfer nothing always are. -/
def CommandAllowed (c : Command) (s : State) : Prop :=
  match c with
  | .idle => True
  | .readChk => FullTransferAllowed s
  | .readDiag => FullTransferAllowed s
  | .writeChk => DataTransferAllowed s
  | .writeFirst => FullTransferAllowed s
  | .format => FullTransferAllowed s
  | .seek => True
  | .reset => True

/-! ## Addresses of a buffer -/

/-- Whether `x` is one of the `n` word addresses from `a` on, modulo 2^32 (R67). -/
def InBuffer (a : Addr) (n : Nat) (x : Addr) : Prop := ∃ i < n, x = a + BitVec.ofNat 32 i

/-! ## What a run does -/

/-- The instruction the next step runs, where it runs one: the handler of the due event, or the access at the front of the inputs. -/
def nextInstr (s : State) : Option Instr :=
  match takeDue s with
  | some (kind, _) => some (eventInstr kind)
  | none =>
    match s.input with
    | .access words :: _ => (fetchAccess words).toOption
    | _ => none

/-- Whether an instruction resets the controller: a command word with code 7, or the environment's `reset()` (R252). -/
def isReset (i : Instr) : Bool :=
  match commandWord i with
  | some w => decide (commandOf w = .reset)
  | none => decide (i = .envReset)

/-- Whether the next step resets the controller. -/
def nextIsReset (s : State) : Bool :=
  match nextInstr s with
  | some i => isReset i
  | none => false

/-- How many of the first `k` steps from `s` reset the controller. -/
def resetsDuring : Nat → State → Nat
  | 0, _ => 0
  | k + 1, s =>
    (if nextIsReset s then 1 else 0) +
      match step s with
      | .next t => resetsDuring k t
      | .fault _ => 0
      | .refused _ => 0

/-- The number of completions pending. -/
def completionsPending (s : State) : Nat := (s.pending.filter isCompletion).length

/-- `P`, one cycle of the index pulse (R211): the pulse and the rotation after it. -/
def indexCycle : Nat := Config.indexPulseNs + Config.rotationNs

/-- The index events are on time (R211): every pulse pending starts at a multiple of `P` and every end of a pulse is 1,100 ns after one. -/
def OnIndexCycle (s : State) : Prop :=
  ∀ e ∈ s.pending,
    (e.kind = .indexStart → ∃ k : Nat, e.due = k * indexCycle) ∧
      (e.kind = .indexEnd → ∃ k : Nat, e.due = k * indexCycle + Config.indexPulseNs)

/-- The completions pending are at most `resets`, plus one while Busy (R47). -/
def CompletionsWithin (resets : Nat) (s : State) : Prop :=
  completionsPending s ≤ resets + if s.status.controllerStatus = .busy then 1 else 0

/-- The number of calls of one kind on the Interrupt Port so far. -/
def callCount (c : IrqCall) (s : State) : Nat := (s.irqTrace.filter (fun x => decide (x.2 = c))).length

/-- A list of command words written one after the other. -/
def writeCommands : List Word → State → Result
  | [], s => .next s
  | w :: ws, s =>
    match exec (.writeCommand w) s with
    | .next t => writeCommands ws t
    | .fault r => .fault r
    | .refused r => .refused r

/-- What the seek machine makes of a list of command words, row by row of R170's table: where it stands, the direction bits of the
words that fired the fourth row (one single-cylinder seek each), and the value the last fired row gave `seekComplete`, if any fired. -/
structure PulseRecord where
  seekState : SeekState
  directions : List Bool
  seekComplete : Option Bool
deriving DecidableEq, Repr

/-- One command word (R170). -/
def PulseRecord.next (r : PulseRecord) (w : Word) : PulseRecord :=
  match r.seekState with
  | .waitForStepSet =>
    if stepBit w then { r with seekState := .waitForStepRelease, seekComplete := some false } else r
  | .waitForStepRelease =>
    if stepBit w then r
    else ⟨.waitForStepSet, r.directions ++ [dirBit w], some true⟩
  | .seekComplete => r

/-- A list of command words, from the seek state `st` (R168). -/
def pulsesOf (st : SeekState) (ws : List Word) : PulseRecord := ws.foldl PulseRecord.next ⟨st, [], none⟩

/-- The cylinder after one single-cylinder seek for each direction bit, each clamped to the drive (R165, R166). -/
def cylinderAfter (p : Params) (start : Nat) (directions : List Bool) : Nat :=
  directions.foldl (fun (c : Nat) away => if away then min (c + 1) (p.cylCount - 1) else c - 1) start

end Sys2Proof.Machine
end

