-- ==== Sys2Proof/Certificates/Slice0/Obligations.lean ====
section
/-! DEFINITION. The statements for the provers. Each docstring names the rules of spec/ it formalises. -/

open Sys2Proof Sys2Proof.Machine

/-! ## Decoding -/

/-- R91, R92, R96, R97, R103, R104, R110: access words with the fields, selectors and tags of the spec's tables decode to what they stand for.
The model's own choices in them: the descriptor's format nibble (log 7, DESIGN CHOICE), the operand word 0xFFF9 of `seekBy` for -7 (log 28,
DESIGN CHOICE), and the packed and head words, whose field positions the spec decided itself (D2, D3; log 31, PRESUMED). -/
def Obligations.SpecWordsDecode : Prop :=
  decode [0x0000, 0x001E] = .ok (.writeCommand 0x001E) ∧
  cmdField 0x001E = 6 ∧ dirBit 0x001E = true ∧ stepBit 0x001E = true ∧ commandOf 0x001E = .seek ∧
  cmdField 0xFFE1 = 1 ∧ dirBit 0xFFE1 = false ∧ stepBit 0xFFE1 = false ∧ commandOf 0xFFE1 = .readChk ∧
  decode [0x0002, 0x0543] = .ok (.writeCylinderSector 0x0543) ∧
  cylSecCylinder 0x0543 = 5 ∧ cylSecHead 0x0543 = 2 ∧ cylSecSector 0x0543 = 3 ∧ headField 0xFFFA = 2 ∧
  decode [0x000A] = .ok .readStatus ∧
  decode [0x000B, 0x0000] = .error .unknownSelector ∧
  decode [0x0020, 0x0004] = .ok (.writeFirst 0x0004) ∧
  decode [0x0010, 0x0016] = .ok (.stepSet 0x0016) ∧
  decode [0x0011, 0x000E] = .ok (.dirAway 0x000E) ∧
  decode [0x0032] = .ok .indexEnd ∧
  decode [0x0041, 0xFFF9] = .ok (.seekBy (-7))

/-- R91 to R93, R103, R104, R110: no bit of a well-formed instruction is dropped by its encoding. -/
def Obligations.DecodeEncodeRoundTrip : Prop :=
  ∀ i : Instr, i.wf = true → decode (encode i) = .ok i

/-- The match and mask columns of the opcode table (R91 to R93) hold of whatever the decoder answers. -/
def Obligations.DecodedInstructionsAreWellFormed : Prop :=
  ∀ (words : List Word) (i : Instr), decode words = .ok i → i.wf = true

/-! ## Which agent moves -/

/-- R9, R208: with nothing due, the access at the front of the inputs runs, at that very state but for the input taken. -/
def Obligations.StepRunsTheDecodedAccess : Prop :=
  ∀ (s : State) (words : List Word) (rest : List Input) (i : Instr),
    (∀ e ∈ s.pending, s.now < e.due) → s.input = .access words :: rest → decode words = .ok i → i.wf = true →
    eventKindOf i = none → step s = exec i { s with input := rest }

/-- R206, R202: where an event is due, a step takes one with the least due time out of `pending` and runs its handler; time, inputs and
everything else wait. An event the handler schedules lies strictly ahead. -/
def Obligations.StepDeliversADueEvent : Prop :=
  ∀ s : State, Inv s → (∃ e ∈ s.pending, e.due ≤ s.now) →
    ∃ (e : Event) (others : List Event) (n : Nat) (t : State),
      (e :: others).Perm s.pending ∧ e.due = s.now ∧ (∀ f ∈ s.pending, e.due ≤ f.due) ∧
      step s = exec (eventInstr e.kind) { s with pending := others, tieCount := n } ∧
      step s = .next t ∧ t.now = s.now ∧ t.input = s.input ∧ (∀ f ∈ t.pending, f ∈ others ∨ s.now < f.due)

/-- R207, R108: with nothing due, time goes to the time asked for where no pending event is due before it; otherwise it goes to the
earliest of those, and the input stays until that event is delivered (log 11). Nothing else changes. -/
def Obligations.StepAdvancesTime : Prop :=
  ∀ (s : State) (t : Nat) (rest : List Input), Inv s → (∀ e ∈ s.pending, s.now < e.due) → s.input = .advance t :: rest → s.now < t →
    ((∀ e ∈ s.pending, t ≤ e.due) → step s = .next { s with now := t, input := rest }) ∧
    ((∃ e ∈ s.pending, e.due < t) →
      ∃ e ∈ s.pending, e.due < t ∧ (∀ f ∈ s.pending, e.due ≤ f.due) ∧ step s = .next { s with now := e.due })

/-- R212, R47: the block is never quiescent. With no input left (the model's choice, log 10: time then runs to the next event) a step is
always possible, and inputs apart from accesses never stop the machine. -/
def Obligations.NeverQuiescent : Prop :=
  ∀ s : State, Inv s → (∀ words rest, s.input ≠ .access words :: rest) → ∃ t, step s = .next t

/-- R39, R10: time never goes back, and it moves only in a step that runs no instruction. -/
def Obligations.TimeMovesOnlyForwardAndOnlyByAdvance : Prop :=
  ∀ s t : State, Inv s → step s = .next t → s.now ≤ t.now ∧ (nextInstr s ≠ none → t.now = s.now)

/-! ## Register operations -/

/-- R121 to R129: each of the nine plain writes loads exactly the registers its rule names, in every state (also while Busy, R131), and
changes nothing else. The widths, the field positions of `writeHead` and `writeCylinderSector` and the opaque words as they stand are the
spec's own decisions (D1 to D4, G3; log 31, PRESUMED). -/
def Obligations.PlainWritesLoadTheirRegisters : Prop :=
  ∀ (v : Word) (s : State),
    exec (.writeHead v) s = .next { s with regs := { s.regs with head := v.extractLsb' 0 3 } } ∧
    exec (.writeCylinderSector v) s = .next { s with
      regs := { s.regs with sector := v.extractLsb' 0 5, head := v.extractLsb' 5 3, cylinder := v.extractLsb' 8 8 } } ∧
    exec (.writeSerialLow v) s = .next { s with regs := { s.regs with serialNumberLow := v } } ∧
    exec (.writeSerialHigh v) s = .next { s with regs := { s.regs with serialNumberHigh := v } } ∧
    exec (.writeBlockNumber v) s = .next { s with regs := { s.regs with blockNumber := v } } ∧
    exec (.writeHeaderAddrLow v) s = .next { s with regs := { s.regs with headerAddressLow := unfrob s.params v } } ∧
    exec (.writeHeaderAddrHigh v) s = .next { s with regs := { s.regs with headerAddressHigh := v ^^^ 0xFFFF } } ∧
    exec (.writeDataBufferAddrLow v) s = .next { s with regs := { s.regs with dataBufferLow := unfrob s.params v } } ∧
    exec (.writeDataBufferAddrHigh v) s = .next { s with regs := { s.regs with dataBufferHigh := v ^^^ 0xFFFF } }

/-- R6(d), R100: both address transforms are involutions, for every value of the parameters. -/
def Obligations.AddressTransformsAreInvolutions : Prop :=
  ∀ (p : Params) (x : Word), unfrob p (unfrob p x) = x ∧ invertHigh (invertHigh x) = x

/-- R5, D5, D19, D25 (log 2, log 16, log 30): the parameters as plain data lose no generality. Every involution is the `unfrob`, every set of
sector addresses the `DiskValid`, every set of word addresses the `MemValid` and every choice of bus addresses the `PORT_MAP` of some
parameters. -/
def Obligations.ParametersAreFullyGeneral : Prop :=
  (∀ f : Word → Word, (∀ x, f (f x) = x) → ∃ p : Params, ∀ x, unfrob p x = f x) ∧
  (∀ valid : SectorAddr → Bool, ∃ p : Params, ∀ a, diskValid p a = valid a) ∧
  (∀ valid : Addr → Bool, ∃ p : Params, ∀ a, memValid p a = valid a) ∧
  (∀ address : Nat → Nat, ∃ p : Params, ∀ selector < 11, busAddress p selector = some (address selector))

/-- R109: the host reaches the word address `A` by writing `unfrob` of its low half and the complement of its high half, for both
buffers. The last line is R109's example under the default `unfrob` of R102, which is PRESUMED (D5, G1; log 2, log 16). -/
def Obligations.ProgrammedAddressesAreReached : Prop :=
  (∀ (A : Addr) (s : State), ∃ t u : State,
    exec (.writeDataBufferAddrLow (unfrob s.params (A.setWidth 16))) s = .next t ∧
    exec (.writeDataBufferAddrHigh (~~~((A >>> 16).setWidth 16))) t = .next u ∧
    u.regs.dataBufferLow = A.setWidth 16 ∧ u.regs.dataBufferHigh = (A >>> 16).setWidth 16 ∧ dataAddress u = A ∧
    headerAddress u = headerAddress s) ∧
  (∀ (A : Addr) (s : State), ∃ t u : State,
    exec (.writeHeaderAddrLow (unfrob s.params (A.setWidth 16))) s = .next t ∧
    exec (.writeHeaderAddrHigh (~~~((A >>> 16).setWidth 16))) t = .next u ∧
    u.regs.headerAddressLow = A.setWidth 16 ∧ u.regs.headerAddressHigh = (A >>> 16).setWidth 16 ∧ headerAddress u = A ∧
    dataAddress u = dataAddress s) ∧
  unfrob Params.default 0x2345 = 0xDF45 ∧ invertHigh 0x0001 = 0xFFFE

/-- R94, R95: every bit of the status word. That bits 15:8 are 0 the spec derives and decides itself (D1, U8; log 31, PRESUMED). -/
def Obligations.StatusWordLayout : Prop :=
  ∀ (p : Params) (st : StatusFields),
    (statusWord p st).extractLsb' 0 3 = (if st.controllerStatus = .busy then p.statusBusy else p.statusDone) ∧
    (statusWord p st).getLsbD 3 = st.index ∧ (statusWord p st).getLsbD 4 = st.trackZero ∧
    (statusWord p st).getLsbD 5 = st.driveFault ∧ (statusWord p st).getLsbD 6 = st.seekComplete ∧
    (statusWord p st).getLsbD 7 = st.unitReady ∧ (statusWord p st).extractLsb' 8 8 = 0

/-- R130, R225: `readStatus` answers the status word and changes no state of the block, in particular neither the line nor its trace.
Where the word returned is kept (`statusReads`) is the model's choice (log 15). -/
def Obligations.ReadStatusHasNoSideEffect : Prop :=
  ∀ s : State, exec .readStatus s = .next { s with statusReads := s.statusReads ++ [(s.now, statusWord s.params s.status)] }

/-! ## The command register -/

/-- R140, R93 (log 8): an instruction that names a command word by its code, its step bit or its direction bit does what the write of that
word does. -/
def Obligations.CommandRowsAreTheWriteOfTheirWord : Prop :=
  ∀ (i : Instr) (w : Word) (s : State), commandWord i = some w → i.wf = true → exec i s = exec (.writeCommand w) s

/-- R141, R147, R148, R149, R140: `Idle`, `Seek` and `Reset` complete in every state. Each has the effect of its rule; then the word is
retained and the seek machine is clocked with it. That the three carry a whole command word is the model's reading (log 8, DEDUCED); the
flag values and the position after `Reset` are the spec's own choice (D8, D9, D23; log 17, DEDUCED). -/
def Obligations.CommandsWithoutTransferComplete : Prop :=
  ∀ (w : Word) (s : State),
    exec (.idle w) s = .next (seekRun { s with
      irqLine := false, irqTrace := s.irqTrace ++ [(s.now, .clear)], seekData := w }) ∧
    exec (.seek w) s = .next (seekRun { s with log := s.log ++ [.unhandled 6], seekData := w }) ∧
    exec (.cmdReset w) s = .next (seekRun { s with
      status :=
        { controllerStatus := .busy, index := false, trackZero := true, driveFault := false, seekComplete := false,
          unitReady := Config.unitReadyReset }
      physicalCylinder := 0
      pending := insertEvent ⟨s.now + 1000000, .busyDone⟩ s.pending
      seekData := w })

/-- R150, R140: every command write whose transfer is valid completes, whatever the status, the flags and the seek state: the word is
retained, the registers, the parameters, time and the agents' lists stay, and the seek machine is left with no transition enabled, as R164
clocks it (D11; log 18, DEDUCED). That the CMD and CMDMOD rows carry a whole command word is log 8 (DEDUCED). -/
def Obligations.AllowedCommandWritesComplete : Prop :=
  ∀ (i : Instr) (w : Word) (s : State), commandWord i = some w → i.wf = true → CommandAllowed (commandOf w) s →
    ∃ t, exec i s = .next t ∧ t.seekData = w ∧ t.regs = s.regs ∧ t.params = s.params ∧ t.now = s.now ∧ t.input = s.input ∧
      t.statusReads = s.statusReads ∧ seekClock t = none

/-- R77, R186, R263: a block command outside `DiskValid`, or one of whose buffer addresses is outside `MemValid`, is refused by name.
`WriteChk` does not use the header buffer. -/
def Obligations.InvalidTransfersAreRefused : Prop :=
  (∀ (i : Instr) (w : Word) (s : State), commandWord i = some w → i.wf = true →
    commandOf w ∈ [Command.readChk, .readDiag, .writeChk, .writeFirst, .format] → diskValid s.params (target s) = false →
    exec i s = .refused .diskAddressInvalid) ∧
  (∀ (i : Instr) (w : Word) (s : State), commandWord i = some w → i.wf = true →
    commandOf w ∈ [Command.readChk, .readDiag, .writeChk, .writeFirst, .format] → diskValid s.params (target s) = true →
    ¬ BufferMapped s.params (dataAddress s) (dataWords s.params) → exec i s = .refused .memoryAddressInvalid) ∧
  (∀ (i : Instr) (w : Word) (s : State), commandWord i = some w → i.wf = true →
    commandOf w ∈ [Command.readChk, .readDiag, .writeFirst, .format] → diskValid s.params (target s) = true →
    ¬ BufferMapped s.params (headerAddress s) (headerWords s.params) → exec i s = .refused .memoryAddressInvalid)

/-- R143, R146: `ReadDiag` has the effect of `ReadChk`, and `Format` that of `WriteFirst`, in every state; only the retained word differs. -/
def Obligations.TwinCommandsAgree : Prop :=
  ∀ (w w' : Word) (s : State), stepBit w = stepBit w' → dirBit w = dirBit w' →
    andThen (exec (.readChk w) s) (retain 0) = andThen (exec (.readDiag w') s) (retain 0) ∧
    andThen (exec (.writeFirst w) s) (retain 0) = andThen (exec (.format w') s) (retain 0)

/-! ## The seek machine -/

/-- R170: the whole machine as one total function, row by row, and its action where it is entered in `SeekComplete`. That the run passes
through `SeekComplete` inside one write (R164, D11) and the direction it takes (R165, D12) are the spec's own decisions (log 18, DEDUCED). -/
def Obligations.SeekRunFollowsTheTable : Prop :=
  ∀ s : State,
    (s.seekState = .waitForStepSet → stepBit s.seekData = false → seekRun s = s) ∧
    (s.seekState = .waitForStepSet → stepBit s.seekData = true →
      seekRun s = { s with status := { s.status with seekComplete := false }, seekState := .waitForStepRelease }) ∧
    (s.seekState = .waitForStepRelease → stepBit s.seekData = true → seekRun s = s) ∧
    (s.seekState = .waitForStepRelease → stepBit s.seekData = false →
      seekRun s = { s with
        physicalCylinder := (singleSeek s).physicalCylinder
        status := { s.status with trackZero := (singleSeek s).status.trackZero, seekComplete := true }
        irqLine := true
        irqTrace := s.irqTrace ++ [(s.now, .raise)]
        seekState := .waitForStepSet }) ∧
    (s.seekState = .seekComplete →
      seekRun s = seekRun { s with
        physicalCylinder := (singleSeek s).physicalCylinder
        status := { s.status with trackZero := (singleSeek s).status.trackZero, seekComplete := true }
        irqLine := true
        irqTrace := s.irqTrace ++ [(s.now, .raise)]
        seekState := .waitForStepSet })

/-- R164: the run ends with no transition enabled, after at most two transitions, and never rests in `SeekComplete` (D11; log 18, DEDUCED). -/
def Obligations.SeekRunEndsQuiet : Prop :=
  ∀ s : State, seekClock (seekRun s) = none ∧ seekRun s = seekLoop 2 s ∧ (seekRun s).seekState ≠ .seekComplete

/-- R161: a command write with the step bit set, in `WaitForStepSet`, clears `seekComplete` and goes on to `WaitForStepRelease`; the
interrupt is not raised and the head stays. A `Reset` word homes the head to cylinder 0 (R148, R149, D8; log 17, DEDUCED). -/
def Obligations.StepSetArmsThePulse : Prop :=
  ∀ (w : Word) (s : State), stepBit w = true → CommandAllowed (commandOf w) s → s.seekState = .waitForStepSet →
    ∃ t, exec (.stepSet w) s = .next t ∧ t.seekState = .waitForStepRelease ∧ t.status.seekComplete = false ∧
      t.physicalCylinder = (if commandOf w = .reset then 0 else s.physicalCylinder) ∧ callCount .raise t = callCount .raise s

/-- R162, R163: a command write with the step bit released, in `WaitForStepRelease`, makes one single-cylinder seek (clamped to the
drive), sets `seekComplete`, raises the interrupt once and returns to `WaitForStepSet`; in a `Reset` word the flags and the position are
reset first (R228). That all this happens inside the releasing write, with that write's direction, is D11 and D12 (R164, R165; log 18,
DEDUCED, unsafe); the position that `Reset` leaves is D8 (R148, R149; log 17, DEDUCED). -/
def Obligations.StepReleaseMovesOneCylinder : Prop :=
  ∀ (w : Word) (s : State), Inv s → stepBit w = false → CommandAllowed (commandOf w) s → s.seekState = .waitForStepRelease →
    ∃ t, exec (.stepRelease w) s = .next t ∧ t.seekState = .waitForStepSet ∧ t.status.seekComplete = true ∧ t.irqLine = true ∧
      callCount .raise t = callCount .raise s + 1 ∧
      t.physicalCylinder =
        (let from0 := if commandOf w = .reset then 0 else s.physicalCylinder
         if dirBit w then min (from0 + 1) (s.params.cylCount - 1) else from0 - 1) ∧
      t.status.trackZero = decide (t.physicalCylinder = 0)

/-- R165, R166, R258: the direction bit of the word that releases the step bit decides the move: toward cylinder 0 where it is 0, away
where it is 1; without a release nothing moves (a `Reset` word homes the head first: R148, R149, D8; log 17, DEDUCED). The move at the
release and its direction are D11 and D12 (R164, R165; log 18, DEDUCED). -/
def Obligations.DirectionBitDecidesTheMove : Prop :=
  ∀ (w : Word) (s : State), Inv s → CommandAllowed (commandOf w) s →
    (dirBit w = false → ∃ t, exec (.dirIn w) s = .next t ∧
      t.physicalCylinder =
        (let from0 := if commandOf w = .reset then 0 else s.physicalCylinder
         if s.seekState = .waitForStepRelease ∧ stepBit w = false then from0 - 1 else from0)) ∧
    (dirBit w = true → ∃ t, exec (.dirAway w) s = .next t ∧
      t.physicalCylinder =
        (let from0 := if commandOf w = .reset then 0 else s.physicalCylinder
         if s.seekState = .waitForStepRelease ∧ stepBit w = false then min (from0 + 1) (s.params.cylCount - 1) else from0))

/-- R166, R167: `seekBy` is the clamped move and the recomputed `trackZero`. That it changes nothing else is the spec's own choice (D13;
log 32, DEDUCED). -/
def Obligations.SeekByClampsTheMove : Prop :=
  ∀ (delta : Int) (s : State), 1 ≤ s.params.cylCount → ∃ c : Nat,
    exec (.seekBy delta) s = .next { s with
      physicalCylinder := c, status := { s.status with trackZero := decide (c = 0) } } ∧
    ((s.physicalCylinder : Int) + delta < 0 → c = 0) ∧
    ((s.params.cylCount : Int) - 1 < s.physicalCylinder + delta → c = s.params.cylCount - 1) ∧
    (0 ≤ (s.physicalCylinder : Int) + delta → (s.physicalCylinder : Int) + delta ≤ s.params.cylCount - 1 →
      (c : Int) = s.physicalCylinder + delta)

/-- R168: over any list of command writes from a resting state, the interrupt is raised once for each full pulse, the seek machine stands
where R170's table leaves it, and, where no `Reset` is among the words, the head has made exactly one clamped single-cylinder seek for
each pulse and `seekComplete` is what the last fired row gave it. That the move and the raise fall in the releasing write, with its
direction, is D11 and D12 (R164, R165; log 18, DEDUCED). -/
def Obligations.OneMoveAndOneInterruptPerPulse : Prop :=
  ∀ (words : List Word) (s t : State), Inv s → writeCommands words s = .next t →
    callCount .raise t = callCount .raise s + (pulsesOf s.seekState words).directions.length ∧
    t.seekState = (pulsesOf s.seekState words).seekState ∧
    ((∀ w ∈ words, commandOf w ≠ .reset) →
      t.physicalCylinder = cylinderAfter s.params s.physicalCylinder (pulsesOf s.seekState words).directions ∧
      t.status.seekComplete = ((pulsesOf s.seekState words).seekComplete).getD s.status.seekComplete)

/-! ## The block transfer engine -/

/-- R181, R142, R143, R64, R67, R76: a read command with a valid target and valid buffers completes: the sector's data words stand at the
data address on, its header words at the header address on, every other memory word reads as before, and nothing else changes but what
entering Busy and the clocked seek machine change. A word counts where no later word of its buffer has the same address (a buffer of more
than 2^32 words runs over itself). In Busy states the transfer is made all the same (R150, R185, D20; log 19, DEDUCED, unsafe), and where
the buffers share addresses the header wins (D14; log 24, DEDUCED). -/
def Obligations.ReadCommandsCopyTheSectorToMemory : Prop :=
  ∀ (w : Word) (s : State), Inv s → FullTransferAllowed s →
    ∃ m : Memory,
      exec (.readChk w) s = .next (seekRun (retain w (enterBusy { s with mem := m }))) ∧
      exec (.readDiag w) s = .next (seekRun (retain w (enterBusy { s with mem := m }))) ∧
      (∀ k < headerWords s.params, headerWords s.params ≤ k + 2 ^ 32 → m.read (headerAddress s + BitVec.ofNat 32 k) =
        ((s.disk.get s.params (target s)).header.getD (2 * k + 1) 0).setWidth 16 <<< 8 |||
          ((s.disk.get s.params (target s)).header.getD (2 * k) 0).setWidth 16) ∧
      (∀ k < dataWords s.params, dataWords s.params ≤ k + 2 ^ 32 →
        ¬ InBuffer (headerAddress s) (headerWords s.params) (dataAddress s + BitVec.ofNat 32 k) →
        m.read (dataAddress s + BitVec.ofNat 32 k) =
          ((s.disk.get s.params (target s)).data.getD (2 * k + 1) 0).setWidth 16 <<< 8 |||
            ((s.disk.get s.params (target s)).data.getD (2 * k) 0).setWidth 16) ∧
      (∀ x : Addr, ¬ InBuffer (headerAddress s) (headerWords s.params) x → ¬ InBuffer (dataAddress s) (dataWords s.params) x →
        m.read x = s.mem.read x)

/-- R182, R144, R188(a): `WriteChk` replaces the data bytes of the addressed sector with the memory words at the data address, keeps the
header on disk, leaves every other sector and all of memory alone, and then enters Busy. In Busy states the transfer is made all the same
(R150, R185, D20; log 19, DEDUCED, unsafe). -/
def Obligations.WriteChkKeepsTheHeader : Prop :=
  ∀ (w : Word) (s : State), Inv s → DataTransferAllowed s → ∃ k : Disk,
    exec (.writeChk w) s = .next (seekRun (retain w (enterBusy { s with disk := k }))) ∧
    (k.get s.params (target s)).header = (s.disk.get s.params (target s)).header ∧
    (k.get s.params (target s)).data.length = s.params.dataBytes ∧
    (∀ j < dataWords s.params,
      (k.get s.params (target s)).data.getD (2 * j) 0 = (s.mem.read (dataAddress s + BitVec.ofNat 32 j)).extractLsb' 0 8 ∧
      (k.get s.params (target s)).data.getD (2 * j + 1) 0 = (s.mem.read (dataAddress s + BitVec.ofNat 32 j)).extractLsb' 8 8) ∧
    (∀ a : SectorAddr, a ≠ target s → k.get s.params a = s.disk.get s.params a)

/-- R182, R183, R145, R146: `WriteFirst` and `Format` write both the data and the header of the addressed sector from memory, leave every
other sector and all of memory alone, and then enter Busy. In Busy states the transfer is made all the same (R150, R185, D20; log 19,
DEDUCED, unsafe). -/
def Obligations.WriteFirstAndFormatWriteTheHeader : Prop :=
  ∀ (w : Word) (s : State), Inv s → FullTransferAllowed s → ∃ k : Disk,
    exec (.writeFirst w) s = .next (seekRun (retain w (enterBusy { s with disk := k }))) ∧
    exec (.format w) s = .next (seekRun (retain w (enterBusy { s with disk := k }))) ∧
    (k.get s.params (target s)).header.length = s.params.headerBytes ∧
    (k.get s.params (target s)).data.length = s.params.dataBytes ∧
    (∀ j < headerWords s.params,
      (k.get s.params (target s)).header.getD (2 * j) 0 = (s.mem.read (headerAddress s + BitVec.ofNat 32 j)).extractLsb' 0 8 ∧
      (k.get s.params (target s)).header.getD (2 * j + 1) 0 =
        (s.mem.read (headerAddress s + BitVec.ofNat 32 j)).extractLsb' 8 8) ∧
    (∀ j < dataWords s.params,
      (k.get s.params (target s)).data.getD (2 * j) 0 = (s.mem.read (dataAddress s + BitVec.ofNat 32 j)).extractLsb' 0 8 ∧
      (k.get s.params (target s)).data.getD (2 * j + 1) 0 = (s.mem.read (dataAddress s + BitVec.ofNat 32 j)).extractLsb' 8 8) ∧
    (∀ a : SectorAddr, a ≠ target s → k.get s.params a = s.disk.get s.params a)

/-- R188(b): a `WriteFirst` from the buffers at `D` and `H`, then a `ReadChk` of the same sector into buffers at `D'` and `H'` that overlap
neither each other nor the first two, copies both buffers word for word. In Busy states both transfers are made all the same (R150, R185,
D20; log 19, DEDUCED, unsafe). -/
def Obligations.WriteThenReadRoundTrips : Prop :=
  ∀ (w w' : Word) (s t u v : State), Inv s → exec (.writeFirst w) s = .next t →
    u.mem = t.mem → u.disk = t.disk → u.params = t.params → target u = target t →
    (∀ x, InBuffer (dataAddress u) (dataWords s.params) x →
      ¬ InBuffer (headerAddress u) (headerWords s.params) x ∧ ¬ InBuffer (dataAddress s) (dataWords s.params) x ∧
        ¬ InBuffer (headerAddress s) (headerWords s.params) x) →
    (∀ x, InBuffer (headerAddress u) (headerWords s.params) x →
      ¬ InBuffer (dataAddress s) (dataWords s.params) x ∧ ¬ InBuffer (headerAddress s) (headerWords s.params) x) →
    exec (.readChk w') u = .next v →
    (∀ k < dataWords s.params,
      v.mem.read (dataAddress u + BitVec.ofNat 32 k) = v.mem.read (dataAddress s + BitVec.ofNat 32 k) ∧
      v.mem.read (dataAddress u + BitVec.ofNat 32 k) = s.mem.read (dataAddress s + BitVec.ofNat 32 k)) ∧
    (∀ k < headerWords s.params,
      v.mem.read (headerAddress u + BitVec.ofNat 32 k) = v.mem.read (headerAddress s + BitVec.ofNat 32 k) ∧
      v.mem.read (headerAddress u + BitVec.ofNat 32 k) = s.mem.read (headerAddress s + BitVec.ofNat 32 k))

/-- R61(b), (d) and R62(a), (c): what each port returns after a write, and the canonical forms kept. -/
def Obligations.PortsReturnWhatWasStored : Prop :=
  (∀ (m : Memory) (a b : Addr) (w : Word), m.wf = true →
    (m.write a w).read a = w ∧ (b ≠ a → (m.write a w).read b = m.read b) ∧ (m.write a w).wf = true) ∧
  (∀ (p : Params) (k : Disk) (a b : SectorAddr) (sec : Sector), k.wf p = true →
    (k.set p a sec).get p a = sec ∧ (b ≠ a → (k.set p a sec).get p b = k.get p b) ∧ (k.set p a sec).wf p = true)

/-- R64: the byte order, index by index, for a byte sequence of even length and for a word sequence; the two maps undo each other. -/
def Obligations.ByteOrderRoundTrips : Prop :=
  (∀ bs : List Byte, bs.length % 2 = 0 →
    (wordsOfBytes bs).length = bs.length / 2 ∧
    (∀ i < bs.length / 2, (wordsOfBytes bs).getD i 0 =
      (bs.getD (2 * i) 0).setWidth 16 ||| (bs.getD (2 * i + 1) 0).setWidth 16 <<< 8) ∧
    bytesOfWords (wordsOfBytes bs) = bs) ∧
  (∀ ws : List Word,
    (bytesOfWords ws).length = 2 * ws.length ∧
    (∀ i < ws.length, (bytesOfWords ws).getD (2 * i) 0 = (ws.getD i 0 &&& 0xFF).setWidth 8 ∧
      (bytesOfWords ws).getD (2 * i + 1) 0 = ((ws.getD i 0 >>> 8) &&& 0xFF).setWidth 8) ∧
    wordsOfBytes (bytesOfWords ws) = ws)

/-! ## Events and time -/

/-- R200: entering Busy arms one completion 1,000,000 ns later, and does nothing while Busy. -/
def Obligations.EnterBusyArmsOneCompletion : Prop :=
  ∀ s : State,
    (s.status.controllerStatus = .busy → enterBusy s = s) ∧
    (s.status.controllerStatus = .done → enterBusy s = { s with
      status := { s.status with controllerStatus := .busy }
      pending := insertEvent ⟨s.now + 1000000, .busyDone⟩ s.pending })

/-- R203, R204, R205: the three handlers, in every state, with everything they leave alone. -/
def Obligations.EventHandlersDoTheirRule : Prop :=
  ∀ s : State,
    exec .busyDone s = .next { s with
      status := { s.status with controllerStatus := .done }, irqLine := true, irqTrace := s.irqTrace ++ [(s.now, .raise)] } ∧
    exec .indexStart s = .next { s with
      status := { s.status with index := true }, pending := insertEvent ⟨s.now + 1100, .indexEnd⟩ s.pending } ∧
    exec .indexEnd s = .next { s with
      status := { s.status with index := false }, pending := insertEvent ⟨s.now + 20000000, .indexStart⟩ s.pending }

/-- R209: the handlers commute pairwise, so the open order of equal due times leaves no trace in what follows them. -/
def Obligations.HandlersCommute : Prop :=
  ∀ (a b : EventKind) (s t u : State), ¬ (a ≠ .busyDone ∧ b ≠ .busyDone) →
    exec (eventInstr a) s = .next t → exec (eventInstr b) t = .next u →
    ∃ t', exec (eventInstr b) s = .next t' ∧ exec (eventInstr a) t' = .next u

/-- R185, R256: a command other than `Reset` written while Busy schedules nothing, cancels nothing and leaves the controller Busy; the
registers it was given are used all the same. -/
def Obligations.BusyIsIdempotent : Prop :=
  ∀ (i : Instr) (w : Word) (s t : State), commandWord i = some w → i.wf = true → commandOf w ≠ .reset →
    s.status.controllerStatus = .busy → exec i s = .next t →
    t.pending = s.pending ∧ t.status.controllerStatus = .busy ∧ t.status.index = s.status.index

/-- R38: no instruction cancels a pending event, and what it adds is ahead of now by one of the three delays. -/
def Obligations.NothingCancelsAnEvent : Prop :=
  ∀ (i : Instr) (s t : State), exec i s = .next t →
    t.pending = s.pending ∨
    ∃ e : Event, t.pending.Perm (e :: s.pending) ∧
      (e = ⟨s.now + 1000000, .busyDone⟩ ∨ e = ⟨s.now + 1100, .indexEnd⟩ ∨ e = ⟨s.now + 20000000, .indexStart⟩)

/-- R210, R148(a): a `Reset` written while Busy leaves the old completion pending and arms one more. -/
def Obligations.ResetWhileBusyLeavesAStaleCompletion : Prop :=
  ∀ (w : Word) (s t : State), Inv s → s.status.controllerStatus = .busy → exec (.cmdReset w) s = .next t →
    (∃ e ∈ t.pending, e ∈ s.pending ∧ e.kind = .busyDone) ∧ completionsPending t = completionsPending s + 1 ∧
      completionsPending t ≥ 2 ∧ t.status.controllerStatus = .busy

/-- R211: from construction with no command (the silent machine's time runs from event to event, log 10, DESIGN CHOICE), `index` is 1 from
`k * P` to `k * P + 1100` and 0 from there to `(k + 1) * P`, for ever, where `P` = 20,001,100. The exact times rest on the ideal scheduler
(D16; log 20, DEDUCED). -/
def Obligations.IndexPulseIsPeriodic : Prop :=
  ∀ (p : Params) (r : HostRegs) (image : Disk) (m : Memory) (k : Nat),
    let s := State.construct p r image m
    let high := { s.status with index := true }
    let low := { s.status with index := false }
    Host.Core.run core (4 * k) s = .next { s with
      now := k * 20001100, status := high, pending := [⟨k * 20001100 + 1100, .indexEnd⟩] } ∧
    Host.Core.run core (4 * k + 1) s = .next { s with
      now := k * 20001100 + 1100, status := high, pending := [⟨k * 20001100 + 1100, .indexEnd⟩] } ∧
    Host.Core.run core (4 * k + 2) s = .next { s with
      now := k * 20001100 + 1100, status := low, pending := [⟨(k + 1) * 20001100, .indexStart⟩] } ∧
    Host.Core.run core (4 * k + 3) s = .next { s with
      now := (k + 1) * 20001100, status := low, pending := [⟨(k + 1) * 20001100, .indexStart⟩] }

/-- R211, R234, R47: the index cycle, step by step. From every state of the invariant whose index event is on time, whatever the agents do,
a step leaves it on time; and `index` changes only where a due pulse starts, where one ends, and in a reset, which clears it (D23; log 17,
DEDUCED). That a due event is delivered at its due time is the ideal scheduler (D16; log 20, DEDUCED). -/
def Obligations.EveryStepKeepsTheIndexCycle : Prop :=
  ∀ s t : State, Inv s → OnIndexCycle s → step s = .next t →
    OnIndexCycle t ∧
    (t.status.index = s.status.index ∨
      nextIsReset s = true ∧ t.status.index = false ∨
      nextInstr s = some .indexStart ∧ t.status.index = true ∧ (∃ k : Nat, s.now = k * indexCycle) ∧
        (⟨s.now, .indexStart⟩ : Event) ∈ s.pending ∨
      nextInstr s = some .indexEnd ∧ t.status.index = false ∧ (∃ k : Nat, s.now = k * indexCycle + Config.indexPulseNs) ∧
        (⟨s.now, .indexEnd⟩ : Event) ∈ s.pending)

/-! ## The interrupt line -/

/-- R223, R224: the interrupt is raised at exactly two places (a delivered completion, and a command write that releases the step bit
of an armed pulse) and cleared at exactly one (the `Idle` command). That the second raise falls in the releasing write is D11 (R164; log 18,
DEDUCED); that only `Idle` clears is D17 (log 23, DEDUCED). -/
def Obligations.InterruptHasTwoRaiseSitesAndOneClearSite : Prop :=
  ∀ (i : Instr) (s t : State), i.wf = true → s.seekState ≠ .seekComplete → exec i s = .next t →
    ∃ calls : List IrqCall, t.irqTrace = s.irqTrace ++ calls.map (fun c => (s.now, c)) ∧
      (.raise ∈ calls ↔
        i = .busyDone ∨ ∃ w, commandWord i = some w ∧ s.seekState = .waitForStepRelease ∧ stepBit w = false) ∧
      (.clear ∈ calls ↔ ∃ w, commandWord i = some w ∧ commandOf w = .idle)

/-- R227, R40, R228: the line is the level the last call left; without a call it stays, and a word that both clears and raises leaves it
raised. The line as a level with a trace is D17 (log 23, DEDUCED). -/
def Obligations.LineFollowsTheLastCall : Prop :=
  ∀ (i : Instr) (s t : State), exec i s = .next t →
    ∃ calls : List IrqCall, t.irqTrace = s.irqTrace ++ calls.map (fun c => (s.now, c)) ∧
      t.irqLine = (match calls.getLast? with | some .raise => true | some .clear => false | none => s.irqLine)

/-! ## Reset -/

/-- R251, R149: `reset()` restores the flags, the position, the seek state and the retained word, and nothing else. The values (D8, D23) and
what it leaves alone (D10) are the spec's own choice (log 17, DEDUCED). -/
def Obligations.EnvironmentResetKeepsTheRest : Prop :=
  ∀ s : State, exec .envReset s = .next { s with
    status :=
      { controllerStatus := .done, index := false, trackZero := true, driveFault := false, seekComplete := false,
        unitReady := Config.unitReadyReset }
    physicalCylinder := 0
    seekState := .waitForStepSet
    seekData := 0 }

/-- R250, R50: construction is the procedure `Construct()`: from any state of the registers, time 0, nothing pending, line low, empty
traces, the flag reset, and then the first `IndexStart`; its values are the spec's own choice (D8, D10, D16, D17; log 17, DEDUCED). The
status word read right after it is 0x98 with the default codes (log 2, PRESUMED). -/
def Obligations.ConstructionRunsItsProcedure : Prop :=
  (∀ (s : State) (image : Disk),
    exec .indexStart
      { resetFlagsAndPosition { s with
          disk := image, now := 0, pending := [], irqLine := false, irqTrace := [], log := [], input := [], statusReads := [],
          tieCount := 0 } with seekState := .waitForStepSet, seekData := 0 } =
      .next (State.construct s.params s.regs image s.mem)) ∧
  statusWord Params.default State.reset.status = 0x98

/-! ## Whole-machine rules -/

/-- R45, R47, R48, R49 and the canonical forms hold after construction, for all parameters that obey R6, all register values and every
image and memory in canonical form, and at `State.reset`. -/
def Obligations.InvariantHoldsAfterConstruction : Prop :=
  (∀ (p : Params) (r : HostRegs) (image : Disk) (m : Memory), p.wf → image.wf p = true → m.wf = true →
    (∀ entry ∈ image, entry.2.fits p = true) → Inv (State.construct p r image m)) ∧
  Inv State.reset

/-- R45, R47, R48, R49 and the canonical forms: every step keeps the invariant, from every state that meets it. -/
def Obligations.EveryStepKeepsTheInvariant : Prop :=
  ∀ s t : State, Inv s → step s = .next t → Inv t

/-- R211, R250, R47: right after construction the index event is on time and no completion is pending, for all parameters, registers, images
and memories. -/
def Obligations.ConstructionStartsTheCycles : Prop :=
  ∀ (p : Params) (r : HostRegs) (image : Disk) (m : Memory),
    OnIndexCycle (State.construct p r image m) ∧ CompletionsWithin 0 (State.construct p r image m)

/-- R47: the bound on the completions, step by step, from every state: a step keeps them within the resets so far, plus one while Busy, where
the count of resets grows by one exactly if the step is a reset. -/
def Obligations.EveryStepKeepsTheCompletionBound : Prop :=
  ∀ (s t : State) (resets : Nat), CompletionsWithin resets s → step s = .next t →
    CompletionsWithin (resets + if nextIsReset s then 1 else 0) t

/-- R47: along every run from construction, whatever the agents do, the completions pending are at most the resets performed, plus one
while Busy. -/
def Obligations.PendingCompletionsAreBoundedByResets : Prop :=
  ∀ (p : Params) (r : HostRegs) (image : Disk) (m : Memory) (inputs : List Input) (k : Nat) (t : State),
    p.wf → image.wf p = true → m.wf = true → (∀ entry ∈ image, entry.2.fits p = true) →
    Host.Core.run core k { State.construct p r image m with input := inputs } = .next t →
    completionsPending t ≤
      resetsDuring k { State.construct p r image m with input := inputs } +
        (if t.status.controllerStatus = .busy then 1 else 0)

/-- R120, R151, R180, R253 and the other rules' silence: which instruction writes which element. None writes the parameters, time, the
inputs or the free choices; memory changes only by the two read commands, the disk only by the three write commands, the registers only
by the nine plain writes, the log only by command 6, the head only by command writes, `reset()` and `seekBy`, the seek state and the
retained word only by command writes and `reset()`. -/
def Obligations.EveryElementHasItsWriters : Prop :=
  ∀ (i : Instr) (s t : State), i.wf = true → exec i s = .next t →
    t.params = s.params ∧ t.now = s.now ∧ t.input = s.input ∧ t.tieCount = s.tieCount ∧
    (t.mem = s.mem ∨ ∃ w, commandWord i = some w ∧ commandOf w ∈ [Command.readChk, .readDiag]) ∧
    (t.disk = s.disk ∨ ∃ w, commandWord i = some w ∧ commandOf w ∈ [Command.writeChk, .writeFirst, .format]) ∧
    (t.regs = s.regs ∨ ∃ v, i ∈ [Instr.writeHead v, .writeCylinderSector v, .writeSerialLow v, .writeSerialHigh v,
      .writeBlockNumber v, .writeHeaderAddrLow v, .writeHeaderAddrHigh v, .writeDataBufferAddrLow v, .writeDataBufferAddrHigh v]) ∧
    (t.log = s.log ∨ ∃ w, commandWord i = some w ∧ commandOf w = .seek) ∧
    (t.physicalCylinder = s.physicalCylinder ∨ commandWord i ≠ none ∨ i = .envReset ∨ ∃ d, i = .seekBy d) ∧
    (t.seekState = s.seekState ∧ t.seekData = s.seekData ∨ commandWord i ≠ none ∨ i = .envReset) ∧
    (t.statusReads = s.statusReads ∨ i = .readStatus)

/-- R120, R141, R147, R161 to R165, R167, R149, R200, R203 to R205: which instruction writes which flag. `driveFault` and `unitReady` change
only in a reset; `index` also in the two index handlers; the status field also in a completion and in the five block commands; `trackZero`
also in `seekBy` and in a command write that completes a pulse; `seekComplete` also in a command write that the seek machine acts on. -/
def Obligations.EveryFlagHasItsWriters : Prop :=
  ∀ (i : Instr) (s t : State), i.wf = true → s.seekState ≠ .seekComplete → exec i s = .next t → isReset i = false →
    t.status.driveFault = s.status.driveFault ∧ t.status.unitReady = s.status.unitReady ∧
    (t.status.index = s.status.index ∨ i ∈ [Instr.indexStart, .indexEnd]) ∧
    (t.status.controllerStatus = s.status.controllerStatus ∨ i = .busyDone ∨
      ∃ w, commandWord i = some w ∧ commandOf w ∈ [Command.readChk, .readDiag, .writeChk, .writeFirst, .format]) ∧
    (t.status.trackZero = s.status.trackZero ∨ (∃ d, i = .seekBy d) ∨
      ∃ w, commandWord i = some w ∧ s.seekState = .waitForStepRelease ∧ stepBit w = false) ∧
    (t.status.seekComplete = s.status.seekComplete ∨
      ∃ w, commandWord i = some w ∧ (s.seekState = .waitForStepSet ↔ stepBit w = true))

/-- R188(c): a command write changes memory only inside the two buffers and the disk only at
the target. -/
def Obligations.TransfersStayInTheirBuffers : Prop :=
  ∀ (i : Instr) (s t : State), Inv s → exec i s = .next t →
    (∀ x : Addr, ¬ InBuffer (dataAddress s) (dataWords s.params) x → ¬ InBuffer (headerAddress s) (headerWords s.params) x →
      t.mem.read x = s.mem.read x) ∧
    (∀ a : SectorAddr, a ≠ target s → t.disk.get t.params a = s.disk.get s.params a)
end

