-- ==== Sys2Proof/Laws/Decode.lean ====
section
/-! SUPPORT. The operand of `seekBy` survives its encoding, and the fields of a command word are those of the opcode table's masks. -/

namespace Sys2Proof

theorem toInt_ofInt_small {d : Int} (h : -32768 ≤ d ∧ d < 32768) : (BitVec.ofInt 16 d).toInt = d := by
  rw [BitVec.toInt_ofInt]
  exact Int.bmod_eq_of_le (by omega) (by omega)

theorem toNat_ofInt_low (d : Int) : ((BitVec.ofInt 16 d).toNat : Int) = d % 65536 := by
  rw [BitVec.toNat_ofInt]
  have : 0 ≤ d % 65536 := Int.emod_nonneg _ (by decide)
  simp [this]

theorem wordsOfIntFuel_ne_nil (fuel : Nat) (d : Int) : wordsOfIntFuel fuel d ≠ [] := by
  cases fuel with
  | zero => simp [wordsOfIntFuel]
  | succ n =>
    unfold wordsOfIntFuel
    split <;> simp

theorem intOfWords_cons {w : Word} {ws : List Word} (h : ws ≠ []) : intOfWords (w :: ws) = (w.toNat : Int) + 65536 * intOfWords ws := by
  cases ws with
  | nil => exact absurd rfl h
  | cons v ws => rfl

theorem intOfWords_wordsOfIntFuel (fuel : Nat) (d : Int) (h : d.natAbs ≤ fuel) : intOfWords (wordsOfIntFuel fuel d) = d := by
  induction fuel generalizing d with
  | zero => exact toInt_ofInt_small (by omega)
  | succ n ih =>
    unfold wordsOfIntFuel
    split
    · rename_i hs; exact toInt_ofInt_small hs
    · rename_i hs
      rw [intOfWords_cons (wordsOfIntFuel_ne_nil _ _), ih _ (by omega), toNat_ofInt_low]
      omega

/-- Decoding the operand words of a delta gives the delta back, whatever its size. -/
theorem intOfWords_wordsOfInt (d : Int) : intOfWords (wordsOfInt d) = d := intOfWords_wordsOfIntFuel _ _ (Nat.le_refl _)

/-- The code of a command word is the word under the mask 0x0007. -/
theorem cmdField_toNat (w : Word) : (cmdField w).toNat = (w &&& 0x0007).toNat := by
  have h : w.toNat &&& 7 = w.toNat % 8 := Nat.and_two_pow_sub_one_eq_mod w.toNat 3
  simp [cmdField, BitVec.extractLsb'_toNat, h]

/-- The CMD rows: the mask 0x0007 picks the code. -/
theorem matchesRow_code (w : Word) {n : Nat} (hn : n < 8) :
    matchesRow 0x0007 (BitVec.ofNat 16 n) w = decide ((cmdField w).toNat = n) := by
  rw [matchesRow, Bool.eq_iff_iff, beq_iff_eq, decide_eq_true_eq, cmdField_toNat, BitVec.toNat_eq, BitVec.toNat_ofNat,
    Nat.mod_eq_of_lt (by omega : n < 2 ^ 16)]

theorem and_bit (w : Word) (i : Nat) : w &&& BitVec.twoPow 16 i = if w.getLsbD i then BitVec.twoPow 16 i else 0 :=
  BitVec.and_twoPow w i

/-- The CMDMOD rows: the mask 0x0010 picks the step bit. -/
theorem matchesRow_stepSet (w : Word) : matchesRow 0x0010 0x0010 w = stepBit w := by
  have h := and_bit w 4
  rw [matchesRow, show (0x0010 : Word) = BitVec.twoPow 16 4 from rfl, h, stepBit]
  cases w.getLsbD 4 <;> rfl

theorem matchesRow_stepRelease (w : Word) : matchesRow 0x0010 0x0000 w = !stepBit w := by
  have h := and_bit w 4
  rw [matchesRow, show (0x0010 : Word) = BitVec.twoPow 16 4 from rfl, h, stepBit]
  cases w.getLsbD 4 <;> rfl

/-- The CMDMOD rows: the mask 0x0008 picks the direction bit. -/
theorem matchesRow_dirAway (w : Word) : matchesRow 0x0008 0x0008 w = dirBit w := by
  have h := and_bit w 3
  rw [matchesRow, show (0x0008 : Word) = BitVec.twoPow 16 3 from rfl, h, dirBit]
  cases w.getLsbD 3 <;> rfl

theorem matchesRow_dirIn (w : Word) : matchesRow 0x0008 0x0000 w = !dirBit w := by
  have h := and_bit w 3
  rw [matchesRow, show (0x0008 : Word) = BitVec.twoPow 16 3 from rfl, h, dirBit]
  cases w.getLsbD 3 <;> rfl

end Sys2Proof
end

