-- ==== Sys2Proof/Laws/State.lean ====
section
/-! SUPPORT. One lemma per field per update: what each shared operation leaves in every field of State. -/

namespace Sys2Proof.Machine

/-! ## irqRaise -/

@[simp] theorem irqRaise_params (s : State) : (irqRaise s).params = s.params := rfl
@[simp] theorem irqRaise_regs (s : State) : (irqRaise s).regs = s.regs := rfl
@[simp] theorem irqRaise_physicalCylinder (s : State) : (irqRaise s).physicalCylinder = s.physicalCylinder := rfl
@[simp] theorem irqRaise_status (s : State) : (irqRaise s).status = s.status := rfl
@[simp] theorem irqRaise_seekState (s : State) : (irqRaise s).seekState = s.seekState := rfl
@[simp] theorem irqRaise_seekData (s : State) : (irqRaise s).seekData = s.seekData := rfl
@[simp] theorem irqRaise_pending (s : State) : (irqRaise s).pending = s.pending := rfl
@[simp] theorem irqRaise_now (s : State) : (irqRaise s).now = s.now := rfl
@[simp] theorem irqRaise_irqLine (s : State) : (irqRaise s).irqLine = true := rfl
@[simp] theorem irqRaise_irqTrace (s : State) : (irqRaise s).irqTrace = s.irqTrace ++ [(s.now, .raise)] := rfl
@[simp] theorem irqRaise_log (s : State) : (irqRaise s).log = s.log := rfl
@[simp] theorem irqRaise_mem (s : State) : (irqRaise s).mem = s.mem := rfl
@[simp] theorem irqRaise_disk (s : State) : (irqRaise s).disk = s.disk := rfl
@[simp] theorem irqRaise_input (s : State) : (irqRaise s).input = s.input := rfl
@[simp] theorem irqRaise_statusReads (s : State) : (irqRaise s).statusReads = s.statusReads := rfl
@[simp] theorem irqRaise_tieCount (s : State) : (irqRaise s).tieCount = s.tieCount := rfl

/-! ## irqClear -/

@[simp] theorem irqClear_params (s : State) : (irqClear s).params = s.params := rfl
@[simp] theorem irqClear_regs (s : State) : (irqClear s).regs = s.regs := rfl
@[simp] theorem irqClear_physicalCylinder (s : State) : (irqClear s).physicalCylinder = s.physicalCylinder := rfl
@[simp] theorem irqClear_status (s : State) : (irqClear s).status = s.status := rfl
@[simp] theorem irqClear_seekState (s : State) : (irqClear s).seekState = s.seekState := rfl
@[simp] theorem irqClear_seekData (s : State) : (irqClear s).seekData = s.seekData := rfl
@[simp] theorem irqClear_pending (s : State) : (irqClear s).pending = s.pending := rfl
@[simp] theorem irqClear_now (s : State) : (irqClear s).now = s.now := rfl
@[simp] theorem irqClear_irqLine (s : State) : (irqClear s).irqLine = false := rfl
@[simp] theorem irqClear_irqTrace (s : State) : (irqClear s).irqTrace = s.irqTrace ++ [(s.now, .clear)] := rfl
@[simp] theorem irqClear_log (s : State) : (irqClear s).log = s.log := rfl
@[simp] theorem irqClear_mem (s : State) : (irqClear s).mem = s.mem := rfl
@[simp] theorem irqClear_disk (s : State) : (irqClear s).disk = s.disk := rfl
@[simp] theorem irqClear_input (s : State) : (irqClear s).input = s.input := rfl
@[simp] theorem irqClear_statusReads (s : State) : (irqClear s).statusReads = s.statusReads := rfl
@[simp] theorem irqClear_tieCount (s : State) : (irqClear s).tieCount = s.tieCount := rfl

/-! ## logUnhandled -/

@[simp] theorem logUnhandled_params (c : BitVec 3) (s : State) : (logUnhandled c s).params = s.params := rfl
@[simp] theorem logUnhandled_regs (c : BitVec 3) (s : State) : (logUnhandled c s).regs = s.regs := rfl
@[simp] theorem logUnhandled_physicalCylinder (c : BitVec 3) (s : State) : (logUnhandled c s).physicalCylinder = s.physicalCylinder := rfl
@[simp] theorem logUnhandled_status (c : BitVec 3) (s : State) : (logUnhandled c s).status = s.status := rfl
@[simp] theorem logUnhandled_seekState (c : BitVec 3) (s : State) : (logUnhandled c s).seekState = s.seekState := rfl
@[simp] theorem logUnhandled_seekData (c : BitVec 3) (s : State) : (logUnhandled c s).seekData = s.seekData := rfl
@[simp] theorem logUnhandled_pending (c : BitVec 3) (s : State) : (logUnhandled c s).pending = s.pending := rfl
@[simp] theorem logUnhandled_now (c : BitVec 3) (s : State) : (logUnhandled c s).now = s.now := rfl
@[simp] theorem logUnhandled_irqLine (c : BitVec 3) (s : State) : (logUnhandled c s).irqLine = s.irqLine := rfl
@[simp] theorem logUnhandled_irqTrace (c : BitVec 3) (s : State) : (logUnhandled c s).irqTrace = s.irqTrace := rfl
@[simp] theorem logUnhandled_log (c : BitVec 3) (s : State) : (logUnhandled c s).log = s.log ++ [.unhandled c] := rfl
@[simp] theorem logUnhandled_mem (c : BitVec 3) (s : State) : (logUnhandled c s).mem = s.mem := rfl
@[simp] theorem logUnhandled_disk (c : BitVec 3) (s : State) : (logUnhandled c s).disk = s.disk := rfl
@[simp] theorem logUnhandled_input (c : BitVec 3) (s : State) : (logUnhandled c s).input = s.input := rfl
@[simp] theorem logUnhandled_statusReads (c : BitVec 3) (s : State) : (logUnhandled c s).statusReads = s.statusReads := rfl
@[simp] theorem logUnhandled_tieCount (c : BitVec 3) (s : State) : (logUnhandled c s).tieCount = s.tieCount := rfl

/-! ## schedule -/

@[simp] theorem schedule_params (d : Nat) (k : EventKind) (s : State) : (schedule d k s).params = s.params := rfl
@[simp] theorem schedule_regs (d : Nat) (k : EventKind) (s : State) : (schedule d k s).regs = s.regs := rfl
@[simp] theorem schedule_physicalCylinder (d : Nat) (k : EventKind) (s : State) : (schedule d k s).physicalCylinder = s.physicalCylinder := rfl
@[simp] theorem schedule_status (d : Nat) (k : EventKind) (s : State) : (schedule d k s).status = s.status := rfl
@[simp] theorem schedule_seekState (d : Nat) (k : EventKind) (s : State) : (schedule d k s).seekState = s.seekState := rfl
@[simp] theorem schedule_seekData (d : Nat) (k : EventKind) (s : State) : (schedule d k s).seekData = s.seekData := rfl
@[simp] theorem schedule_pending (d : Nat) (k : EventKind) (s : State) : (schedule d k s).pending = insertEvent ⟨s.now + d, k⟩ s.pending := rfl
@[simp] theorem schedule_now (d : Nat) (k : EventKind) (s : State) : (schedule d k s).now = s.now := rfl
@[simp] theorem schedule_irqLine (d : Nat) (k : EventKind) (s : State) : (schedule d k s).irqLine = s.irqLine := rfl
@[simp] theorem schedule_irqTrace (d : Nat) (k : EventKind) (s : State) : (schedule d k s).irqTrace = s.irqTrace := rfl
@[simp] theorem schedule_log (d : Nat) (k : EventKind) (s : State) : (schedule d k s).log = s.log := rfl
@[simp] theorem schedule_mem (d : Nat) (k : EventKind) (s : State) : (schedule d k s).mem = s.mem := rfl
@[simp] theorem schedule_disk (d : Nat) (k : EventKind) (s : State) : (schedule d k s).disk = s.disk := rfl
@[simp] theorem schedule_input (d : Nat) (k : EventKind) (s : State) : (schedule d k s).input = s.input := rfl
@[simp] theorem schedule_statusReads (d : Nat) (k : EventKind) (s : State) : (schedule d k s).statusReads = s.statusReads := rfl
@[simp] theorem schedule_tieCount (d : Nat) (k : EventKind) (s : State) : (schedule d k s).tieCount = s.tieCount := rfl

/-! ## resetFlagsAndPosition -/

@[simp] theorem resetFlagsAndPosition_params (s : State) : (resetFlagsAndPosition s).params = s.params := rfl
@[simp] theorem resetFlagsAndPosition_regs (s : State) : (resetFlagsAndPosition s).regs = s.regs := rfl
@[simp] theorem resetFlagsAndPosition_physicalCylinder (s : State) : (resetFlagsAndPosition s).physicalCylinder = 0 := rfl
@[simp] theorem resetFlagsAndPosition_status (s : State) : (resetFlagsAndPosition s).status = resetStatus := rfl
@[simp] theorem resetFlagsAndPosition_seekState (s : State) : (resetFlagsAndPosition s).seekState = s.seekState := rfl
@[simp] theorem resetFlagsAndPosition_seekData (s : State) : (resetFlagsAndPosition s).seekData = s.seekData := rfl
@[simp] theorem resetFlagsAndPosition_pending (s : State) : (resetFlagsAndPosition s).pending = s.pending := rfl
@[simp] theorem resetFlagsAndPosition_now (s : State) : (resetFlagsAndPosition s).now = s.now := rfl
@[simp] theorem resetFlagsAndPosition_irqLine (s : State) : (resetFlagsAndPosition s).irqLine = s.irqLine := rfl
@[simp] theorem resetFlagsAndPosition_irqTrace (s : State) : (resetFlagsAndPosition s).irqTrace = s.irqTrace := rfl
@[simp] theorem resetFlagsAndPosition_log (s : State) : (resetFlagsAndPosition s).log = s.log := rfl
@[simp] theorem resetFlagsAndPosition_mem (s : State) : (resetFlagsAndPosition s).mem = s.mem := rfl
@[simp] theorem resetFlagsAndPosition_disk (s : State) : (resetFlagsAndPosition s).disk = s.disk := rfl
@[simp] theorem resetFlagsAndPosition_input (s : State) : (resetFlagsAndPosition s).input = s.input := rfl
@[simp] theorem resetFlagsAndPosition_statusReads (s : State) : (resetFlagsAndPosition s).statusReads = s.statusReads := rfl
@[simp] theorem resetFlagsAndPosition_tieCount (s : State) : (resetFlagsAndPosition s).tieCount = s.tieCount := rfl

/-! ## seekTo -/

@[simp] theorem seekTo_params (c : Int) (s : State) : (seekTo c s).params = s.params := rfl
@[simp] theorem seekTo_regs (c : Int) (s : State) : (seekTo c s).regs = s.regs := rfl
@[simp] theorem seekTo_physicalCylinder (c : Int) (s : State) : (seekTo c s).physicalCylinder = clampCylinder s.params c := rfl
@[simp] theorem seekTo_status (c : Int) (s : State) : (seekTo c s).status = { s.status with trackZero := trackZeroOf (clampCylinder s.params c) } := rfl
@[simp] theorem seekTo_seekState (c : Int) (s : State) : (seekTo c s).seekState = s.seekState := rfl
@[simp] theorem seekTo_seekData (c : Int) (s : State) : (seekTo c s).seekData = s.seekData := rfl
@[simp] theorem seekTo_pending (c : Int) (s : State) : (seekTo c s).pending = s.pending := rfl
@[simp] theorem seekTo_now (c : Int) (s : State) : (seekTo c s).now = s.now := rfl
@[simp] theorem seekTo_irqLine (c : Int) (s : State) : (seekTo c s).irqLine = s.irqLine := rfl
@[simp] theorem seekTo_irqTrace (c : Int) (s : State) : (seekTo c s).irqTrace = s.irqTrace := rfl
@[simp] theorem seekTo_log (c : Int) (s : State) : (seekTo c s).log = s.log := rfl
@[simp] theorem seekTo_mem (c : Int) (s : State) : (seekTo c s).mem = s.mem := rfl
@[simp] theorem seekTo_disk (c : Int) (s : State) : (seekTo c s).disk = s.disk := rfl
@[simp] theorem seekTo_input (c : Int) (s : State) : (seekTo c s).input = s.input := rfl
@[simp] theorem seekTo_statusReads (c : Int) (s : State) : (seekTo c s).statusReads = s.statusReads := rfl
@[simp] theorem seekTo_tieCount (c : Int) (s : State) : (seekTo c s).tieCount = s.tieCount := rfl

/-! ## retain -/

@[simp] theorem retain_params (w : Word) (s : State) : (retain w s).params = s.params := rfl
@[simp] theorem retain_regs (w : Word) (s : State) : (retain w s).regs = s.regs := rfl
@[simp] theorem retain_physicalCylinder (w : Word) (s : State) : (retain w s).physicalCylinder = s.physicalCylinder := rfl
@[simp] theorem retain_status (w : Word) (s : State) : (retain w s).status = s.status := rfl
@[simp] theorem retain_seekState (w : Word) (s : State) : (retain w s).seekState = s.seekState := rfl
@[simp] theorem retain_seekData (w : Word) (s : State) : (retain w s).seekData = w := rfl
@[simp] theorem retain_pending (w : Word) (s : State) : (retain w s).pending = s.pending := rfl
@[simp] theorem retain_now (w : Word) (s : State) : (retain w s).now = s.now := rfl
@[simp] theorem retain_irqLine (w : Word) (s : State) : (retain w s).irqLine = s.irqLine := rfl
@[simp] theorem retain_irqTrace (w : Word) (s : State) : (retain w s).irqTrace = s.irqTrace := rfl
@[simp] theorem retain_log (w : Word) (s : State) : (retain w s).log = s.log := rfl
@[simp] theorem retain_mem (w : Word) (s : State) : (retain w s).mem = s.mem := rfl
@[simp] theorem retain_disk (w : Word) (s : State) : (retain w s).disk = s.disk := rfl
@[simp] theorem retain_input (w : Word) (s : State) : (retain w s).input = s.input := rfl
@[simp] theorem retain_statusReads (w : Word) (s : State) : (retain w s).statusReads = s.statusReads := rfl
@[simp] theorem retain_tieCount (w : Word) (s : State) : (retain w s).tieCount = s.tieCount := rfl

/-! ## enterBusy -/

theorem enterBusy_of_busy (s : State) (h : s.status.controllerStatus = .busy) : enterBusy s = s := by
  simp [enterBusy, h]

theorem enterBusy_of_done (s : State) (h : s.status.controllerStatus = .done) :
    enterBusy s = { s with
      status := { s.status with controllerStatus := .busy }
      pending := insertEvent ⟨s.now + Config.busyNs, .busyDone⟩ s.pending } := by
  simp [enterBusy, h, schedule]

@[simp] theorem enterBusy_status (s : State) :
    (enterBusy s).status = { s.status with controllerStatus := .busy } := by
  cases h : s.status.controllerStatus with
  | done => simp [enterBusy_of_done s h]
  | busy => rw [enterBusy_of_busy s h, ← h]

theorem enterBusy_pending (s : State) :
    (enterBusy s).pending =
      if s.status.controllerStatus = .busy then s.pending
      else insertEvent ⟨s.now + Config.busyNs, .busyDone⟩ s.pending := by
  cases h : s.status.controllerStatus with
  | done => simp [enterBusy_of_done s h]
  | busy => simp [enterBusy_of_busy s h]

@[simp] theorem enterBusy_params (s : State) : (enterBusy s).params = s.params := by
  unfold enterBusy; split <;> rfl
@[simp] theorem enterBusy_regs (s : State) : (enterBusy s).regs = s.regs := by
  unfold enterBusy; split <;> rfl
@[simp] theorem enterBusy_physicalCylinder (s : State) : (enterBusy s).physicalCylinder = s.physicalCylinder := by
  unfold enterBusy; split <;> rfl
@[simp] theorem enterBusy_seekState (s : State) : (enterBusy s).seekState = s.seekState := by
  unfold enterBusy; split <;> rfl
@[simp] theorem enterBusy_seekData (s : State) : (enterBusy s).seekData = s.seekData := by
  unfold enterBusy; split <;> rfl
@[simp] theorem enterBusy_now (s : State) : (enterBusy s).now = s.now := by
  unfold enterBusy; split <;> rfl
@[simp] theorem enterBusy_irqLine (s : State) : (enterBusy s).irqLine = s.irqLine := by
  unfold enterBusy; split <;> rfl
@[simp] theorem enterBusy_irqTrace (s : State) : (enterBusy s).irqTrace = s.irqTrace := by
  unfold enterBusy; split <;> rfl
@[simp] theorem enterBusy_log (s : State) : (enterBusy s).log = s.log := by
  unfold enterBusy; split <;> rfl
@[simp] theorem enterBusy_mem (s : State) : (enterBusy s).mem = s.mem := by
  unfold enterBusy; split <;> rfl
@[simp] theorem enterBusy_disk (s : State) : (enterBusy s).disk = s.disk := by
  unfold enterBusy; split <;> rfl
@[simp] theorem enterBusy_input (s : State) : (enterBusy s).input = s.input := by
  unfold enterBusy; split <;> rfl
@[simp] theorem enterBusy_statusReads (s : State) : (enterBusy s).statusReads = s.statusReads := by
  unfold enterBusy; split <;> rfl
@[simp] theorem enterBusy_tieCount (s : State) : (enterBusy s).tieCount = s.tieCount := by
  unfold enterBusy; split <;> rfl

/-! ## singleSeek -/

@[simp] theorem singleSeek_params (s : State) : (singleSeek s).params = s.params := by
  unfold singleSeek; split <;> rfl
@[simp] theorem singleSeek_regs (s : State) : (singleSeek s).regs = s.regs := by
  unfold singleSeek; split <;> rfl
@[simp] theorem singleSeek_seekState (s : State) : (singleSeek s).seekState = s.seekState := by
  unfold singleSeek; split <;> rfl
@[simp] theorem singleSeek_seekData (s : State) : (singleSeek s).seekData = s.seekData := by
  unfold singleSeek; split <;> rfl
@[simp] theorem singleSeek_pending (s : State) : (singleSeek s).pending = s.pending := by
  unfold singleSeek; split <;> rfl
@[simp] theorem singleSeek_now (s : State) : (singleSeek s).now = s.now := by
  unfold singleSeek; split <;> rfl
@[simp] theorem singleSeek_irqLine (s : State) : (singleSeek s).irqLine = s.irqLine := by
  unfold singleSeek; split <;> rfl
@[simp] theorem singleSeek_irqTrace (s : State) : (singleSeek s).irqTrace = s.irqTrace := by
  unfold singleSeek; split <;> rfl
@[simp] theorem singleSeek_log (s : State) : (singleSeek s).log = s.log := by
  unfold singleSeek; split <;> rfl
@[simp] theorem singleSeek_mem (s : State) : (singleSeek s).mem = s.mem := by
  unfold singleSeek; split <;> rfl
@[simp] theorem singleSeek_disk (s : State) : (singleSeek s).disk = s.disk := by
  unfold singleSeek; split <;> rfl
@[simp] theorem singleSeek_input (s : State) : (singleSeek s).input = s.input := by
  unfold singleSeek; split <;> rfl
@[simp] theorem singleSeek_statusReads (s : State) : (singleSeek s).statusReads = s.statusReads := by
  unfold singleSeek; split <;> rfl
@[simp] theorem singleSeek_tieCount (s : State) : (singleSeek s).tieCount = s.tieCount := by
  unfold singleSeek; split <;> rfl

/-! ## andThen -/

@[simp] theorem andThen_next (s : State) (f : State → State) : andThen (.next s) f = .next (f s) := rfl
@[simp] theorem andThen_fault (r : Fault) (f : State → State) : andThen (.fault r) f = .fault r := rfl
@[simp] theorem andThen_refused (r : Refusal) (f : State → State) : andThen (.refused r) f = .refused r := rfl

theorem andThen_eq_next {r : Result} {f : State → State} {t : State} (h : andThen r f = .next t) :
    ∃ s, r = .next s ∧ t = f s := by
  cases r with
  | next s => exact ⟨s, rfl, by simpa using h.symm⟩
  | fault x => simp at h
  | refused x => simp at h

/-! ## Reset -/

theorem reset_memory_wf : State.reset.mem.wf = true := rfl

theorem reset_disk_wf : State.reset.disk.wf State.reset.params = true := rfl

end Sys2Proof.Machine
end

