-- ==== Sys2Proof/Laws/Events.lean ====
section
/-! SUPPORT. The pending list: insertion keeps the order and adds exactly one event; delivery takes exactly one, with the least due time. -/

namespace Sys2Proof.Machine

theorem Event.before_iff (e f : Event) :
    e.before f = true ↔ e.due < f.due ∨ (e.due = f.due ∧ e.kind.tag ≤ f.kind.tag) := by
  simp [Event.before]

theorem Event.before_total (e f : Event) (h : ¬ e.before f = true) : f.before e = true := by
  rw [Event.before_iff] at h ⊢
  omega

theorem Event.before_trans {e f g : Event} (h1 : e.before f = true) (h2 : f.before g = true) : e.before g = true := by
  rw [Event.before_iff] at h1 h2 ⊢
  omega

theorem Event.due_le_of_before {e f : Event} (h : e.before f = true) : e.due ≤ f.due := by
  rw [Event.before_iff] at h
  omega

/-- Insertion adds exactly the event (R38, R201). -/
theorem insertEvent_perm (e : Event) (l : List Event) : (insertEvent e l).Perm (e :: l) := by
  induction l with
  | nil => exact List.Perm.refl _
  | cons f rest ih =>
    unfold insertEvent
    split
    · exact List.Perm.refl _
    · exact (List.Perm.cons f ih).trans (List.Perm.swap e f rest)

theorem mem_insertEvent {e x : Event} {l : List Event} : x ∈ insertEvent e l ↔ x = e ∨ x ∈ l := by
  rw [(insertEvent_perm e l).mem_iff, List.mem_cons]

/-- Insertion keeps the canonical order (log 13). -/
theorem insertEvent_sorted (e : Event) {l : List Event} (h : l.Pairwise (fun a b => a.before b = true)) :
    (insertEvent e l).Pairwise (fun a b => a.before b = true) := by
  induction l with
  | nil => simp [insertEvent]
  | cons f rest ih =>
    obtain ⟨hf, hr⟩ := List.pairwise_cons.1 h
    unfold insertEvent
    split
    · rename_i he
      refine List.pairwise_cons.2 ⟨fun x hx => ?_, h⟩
      rcases List.mem_cons.1 hx with rfl | hx
      · exact he
      · exact Event.before_trans he (hf x hx)
    · rename_i he
      refine List.pairwise_cons.2 ⟨fun x hx => ?_, ih hr⟩
      rcases mem_insertEvent.1 hx with rfl | hx
      · exact Event.before_total _ _ he
      · exact hf x hx

theorem length_filter_insertEvent (p : Event → Bool) (e : Event) (l : List Event) :
    ((insertEvent e l).filter p).length = (l.filter p).length + if p e then 1 else 0 := by
  rw [((insertEvent_perm e l).filter p).length_eq, List.filter_cons]
  split <;> simp

theorem tiesAt_le (due : Nat) (l : List Event) : tiesAt due l ≤ l.length := by
  unfold tiesAt
  exact (List.takeWhile_sublist _).length_le

theorem tiesAt_pos (e : Event) (rest : List Event) : 1 ≤ tiesAt e.due (e :: rest) := by
  simp [tiesAt]

theorem tieChoice_lt {n : Nat} (h : 1 ≤ n) (c : Nat) : tieChoice n c < n := by
  unfold tieChoice
  split
  · omega
  · exact Nat.mod_lt _ h

theorem getD_mem_ties {due : Nat} {l : List Event} {i : Nat} {d : Event} (h : i < tiesAt due l) : (l.getD i d).due = due := by
  induction l generalizing i with
  | nil => simp [tiesAt] at h
  | cons e rest ih =>
    unfold tiesAt at h ih
    rw [List.takeWhile_cons] at h
    split at h
    · rename_i he
      cases i with
      | zero => simpa using he
      | succ i => simpa using ih (by simpa using h)
    · simp at h

theorem perm_eraseIdx {l : List Event} {i : Nat} {d : Event} (h : i < l.length) : (l.getD i d :: l.eraseIdx i).Perm l := by
  induction l generalizing i with
  | nil => simp at h
  | cons e rest ih =>
    cases i with
    | zero => exact List.Perm.refl _
    | succ i =>
      have h' : i < rest.length := by simpa using h
      simpa using (List.Perm.swap e (rest.getD i d) (rest.eraseIdx i)).trans (List.Perm.cons e (ih h'))

/-- Nothing is due: nothing is delivered. -/
theorem takeDue_eq_none {s : State} (h : ∀ e ∈ s.pending, s.now < e.due) : takeDue s = none := by
  unfold takeDue
  split
  · rfl
  · rename_i e rest he
    have : ¬ e.due ≤ s.now := by have := h e (by simp [he]); omega
    simp [this]

/-- Everything a delivery can do (R206): it takes one event that is due and has the due time of the list's front. -/
theorem takeDue_eq_some {s t : State} {k : EventKind} (h : takeDue s = some (k, t)) :
    ∃ (e first : Event) (rest others : List Event) (n : Nat),
      s.pending = first :: rest ∧ first.due ≤ s.now ∧ e.due = first.due ∧ e.kind = k ∧ others.Sublist s.pending ∧
        (e :: others).Perm s.pending ∧ t = { s with pending := others, tieCount := n } := by
  unfold takeDue at h
  split at h
  · cases h
  · rename_i first rest hp
    split at h
    · rename_i hd
      simp only [Option.some.injEq, Prod.mk.injEq] at h
      obtain ⟨hk, ht⟩ := h
      have hlt := tieChoice_lt (tiesAt_pos first rest) s.tieCount
      have hle := tiesAt_le first.due (first :: rest)
      refine ⟨_, first, rest, _, _, hp, hd, getD_mem_ties (d := first) hlt, hk, ?_, ?_, ht.symm⟩
      · rw [hp]; exact List.eraseIdx_sublist _ _
      · rw [hp]; exact perm_eraseIdx (by omega)
    · cases h

/-- Where something is due and the list is sorted, something is delivered. -/
theorem takeDue_ne_none {s : State} (hs : s.pending.Pairwise (fun a b => a.before b = true))
    (h : ∃ e ∈ s.pending, e.due ≤ s.now) : takeDue s ≠ none := by
  obtain ⟨e, he, hd⟩ := h
  unfold takeDue
  split
  · rename_i hp; simp [hp] at he
  · rename_i first rest hp
    rw [hp] at he hs
    have hf : first.due ≤ e.due := by
      rcases List.mem_cons.1 he with rfl | he
      · exact Nat.le_refl _
      · exact Event.due_le_of_before ((List.pairwise_cons.1 hs).1 e he)
    have : first.due ≤ s.now := by omega
    simp [this]

end Sys2Proof.Machine
end

