-- ==== Sys2Proof/Laws/Seek.lean ====
section
/-! SUPPORT. The seek machine, one lemma per row of 42_seek R170, and what a seek run can and cannot change. -/

namespace Sys2Proof.Machine

@[simp] theorem resetStatus_controllerStatus : resetStatus.controllerStatus = .done := rfl

theorem clampCylinder_lt {p : Params} (h : 1 ≤ p.cylCount) (c : Int) : clampCylinder p c < p.cylCount := by
  unfold clampCylinder
  split
  · omega
  · split <;> omega

theorem clampCylinder_succ {p : Params} {c : Nat} (h : c < p.cylCount) :
    clampCylinder p ((c : Int) + 1) = min (c + 1) (p.cylCount - 1) := by
  unfold clampCylinder
  split
  · omega
  · split <;> omega

theorem clampCylinder_pred {p : Params} {c : Nat} (h : c < p.cylCount) : clampCylinder p ((c : Int) - 1) = c - 1 := by
  unfold clampCylinder
  split
  · omega
  · split <;> omega

/-- The cylinder after a single seek of a head that is on the drive. -/
theorem singleSeek_physicalCylinder {s : State} (h : s.physicalCylinder < s.params.cylCount) :
    (singleSeek s).physicalCylinder =
      if dirBit s.seekData then min (s.physicalCylinder + 1) (s.params.cylCount - 1) else s.physicalCylinder - 1 := by
  unfold singleSeek
  split
  · simp [clampCylinder_succ h]
  · simp [clampCylinder_pred h]

/-- A single seek writes `trackZero` from the new position and no other flag. -/
theorem singleSeek_status (s : State) :
    (singleSeek s).status = { s.status with trackZero := decide ((singleSeek s).physicalCylinder = 0) } := by
  unfold singleSeek
  split <;> rfl

/-- The state after the action of R163. -/
def afterAction (s : State) : State :=
  { s with
    physicalCylinder := (singleSeek s).physicalCylinder
    status := { s.status with trackZero := (singleSeek s).status.trackZero, seekComplete := true }
    irqLine := true
    irqTrace := s.irqTrace ++ [(s.now, .raise)]
    seekState := .waitForStepSet }

theorem seekClock_seekComplete {s : State} (h : s.seekState = .seekComplete) : seekClock s = some (afterAction s) := by
  unfold seekClock afterAction singleSeek
  simp only [h]
  split <;> rfl

theorem seekClock_set {s : State} (h : s.seekState = .waitForStepSet) :
    seekClock s = if stepBit s.seekData then
      some { s with status := { s.status with seekComplete := false }, seekState := .waitForStepRelease } else none := by
  simp [seekClock, h]

theorem seekClock_release {s : State} (h : s.seekState = .waitForStepRelease) :
    seekClock s = if stepBit s.seekData then none else some { s with seekState := .seekComplete } := by
  simp [seekClock, h]

@[simp] theorem afterAction_seekState (s : State) : (afterAction s).seekState = .waitForStepSet := rfl
@[simp] theorem afterAction_seekData (s : State) : (afterAction s).seekData = s.seekData := rfl

/-- `SingleSeek` does not look at the seek state. -/
theorem afterAction_any_seekState (s : State) (x : SeekState) : afterAction { s with seekState := x } = afterAction s := by
  unfold afterAction singleSeek
  cases h : dirBit s.seekData <;> simp [seekTo]

theorem seekRun_set_idle {s : State} (h : s.seekState = .waitForStepSet) (hb : stepBit s.seekData = false) : seekRun s = s := by
  simp [seekRun, seekLoop, seekClock_set h, hb]

theorem seekRun_set_step {s : State} (h : s.seekState = .waitForStepSet) (hb : stepBit s.seekData = true) :
    seekRun s = { s with status := { s.status with seekComplete := false }, seekState := .waitForStepRelease } := by
  simp [seekRun, seekLoop, seekClock_set h, hb, seekClock_release]

theorem seekRun_release_held {s : State} (h : s.seekState = .waitForStepRelease) (hb : stepBit s.seekData = true) :
    seekRun s = s := by
  simp [seekRun, seekLoop, seekClock_release h, hb]

theorem seekRun_release_step {s : State} (h : s.seekState = .waitForStepRelease) (hb : stepBit s.seekData = false) :
    seekRun s = afterAction s := by
  have h1 : seekClock s = some { s with seekState := .seekComplete } := by simp [seekClock_release h, hb]
  have h2 : seekClock { s with seekState := .seekComplete } = some (afterAction s) := by
    rw [seekClock_seekComplete rfl, afterAction_any_seekState]
  have h3 : seekClock (afterAction s) = none := by simp [seekClock_set (afterAction_seekState s), hb]
  simp only [seekRun, seekLoop, h1, h2, h3]

theorem seekRun_seekComplete {s : State} (h : s.seekState = .seekComplete) : seekRun s = seekRun (afterAction s) := by
  cases hb : stepBit s.seekData
  · have h3 : seekClock (afterAction s) = none := by simp [seekClock_set (afterAction_seekState s), hb]
    rw [seekRun_set_idle (afterAction_seekState s) (by simpa using hb)]
    simp only [seekRun, seekLoop, seekClock_seekComplete h, h3]
  · rw [seekRun_set_step (afterAction_seekState s) (by simpa using hb)]
    have h2 : seekClock (afterAction s) = some { afterAction s with
        status := { (afterAction s).status with seekComplete := false }, seekState := .waitForStepRelease } := by
      simp [seekClock_set (afterAction_seekState s), hb]
    have h3 : seekClock { afterAction s with
        status := { (afterAction s).status with seekComplete := false }, seekState := .waitForStepRelease } = none := by
      rw [seekClock_release rfl]
      simp [hb]
    simp only [seekRun, seekLoop, seekClock_seekComplete h, h2, h3]

/-- Everything a seek run can do, from any state: the four rows of R170, and the same again after the action where it starts in
`SeekComplete`. -/
theorem seekRun_cases (s : State) :
    (seekRun s = s ∧ s.seekState ≠ .seekComplete) ∨
    seekRun s = { s with status := { s.status with seekComplete := false }, seekState := .waitForStepRelease } ∨
    (seekRun s = afterAction s ∧ stepBit s.seekData = false) ∨
    (s.seekState = .seekComplete ∧ seekRun s = { afterAction s with
      status := { (afterAction s).status with seekComplete := false }, seekState := .waitForStepRelease }) := by
  cases h : s.seekState <;> cases hb : stepBit s.seekData
  · exact .inl ⟨seekRun_set_idle h hb, by simp⟩
  · exact .inr (.inl (seekRun_set_step h hb))
  · exact .inr (.inr (.inl ⟨seekRun_release_step h hb, rfl⟩))
  · exact .inl ⟨seekRun_release_held h hb, by simp⟩
  · refine .inr (.inr (.inl ⟨?_, rfl⟩))
    rw [seekRun_seekComplete h, seekRun_set_idle (afterAction_seekState s) (by simpa using hb)]
  · refine .inr (.inr (.inr ⟨rfl, ?_⟩))
    rw [seekRun_seekComplete h, seekRun_set_step (afterAction_seekState s) (by simpa using hb)]

@[simp] theorem seekRun_params (s : State) : (seekRun s).params = s.params := by
  rcases seekRun_cases s with ⟨h, -⟩ | h | ⟨h, -⟩ | ⟨-, h⟩ <;> rw [h] <;> rfl
@[simp] theorem seekRun_regs (s : State) : (seekRun s).regs = s.regs := by
  rcases seekRun_cases s with ⟨h, -⟩ | h | ⟨h, -⟩ | ⟨-, h⟩ <;> rw [h] <;> rfl
@[simp] theorem seekRun_seekData (s : State) : (seekRun s).seekData = s.seekData := by
  rcases seekRun_cases s with ⟨h, -⟩ | h | ⟨h, -⟩ | ⟨-, h⟩ <;> rw [h] <;> rfl
@[simp] theorem seekRun_pending (s : State) : (seekRun s).pending = s.pending := by
  rcases seekRun_cases s with ⟨h, -⟩ | h | ⟨h, -⟩ | ⟨-, h⟩ <;> rw [h] <;> rfl
@[simp] theorem seekRun_now (s : State) : (seekRun s).now = s.now := by
  rcases seekRun_cases s with ⟨h, -⟩ | h | ⟨h, -⟩ | ⟨-, h⟩ <;> rw [h] <;> rfl
@[simp] theorem seekRun_log (s : State) : (seekRun s).log = s.log := by
  rcases seekRun_cases s with ⟨h, -⟩ | h | ⟨h, -⟩ | ⟨-, h⟩ <;> rw [h] <;> rfl
@[simp] theorem seekRun_mem (s : State) : (seekRun s).mem = s.mem := by
  rcases seekRun_cases s with ⟨h, -⟩ | h | ⟨h, -⟩ | ⟨-, h⟩ <;> rw [h] <;> rfl
@[simp] theorem seekRun_disk (s : State) : (seekRun s).disk = s.disk := by
  rcases seekRun_cases s with ⟨h, -⟩ | h | ⟨h, -⟩ | ⟨-, h⟩ <;> rw [h] <;> rfl
@[simp] theorem seekRun_input (s : State) : (seekRun s).input = s.input := by
  rcases seekRun_cases s with ⟨h, -⟩ | h | ⟨h, -⟩ | ⟨-, h⟩ <;> rw [h] <;> rfl
@[simp] theorem seekRun_statusReads (s : State) : (seekRun s).statusReads = s.statusReads := by
  rcases seekRun_cases s with ⟨h, -⟩ | h | ⟨h, -⟩ | ⟨-, h⟩ <;> rw [h] <;> rfl
@[simp] theorem seekRun_tieCount (s : State) : (seekRun s).tieCount = s.tieCount := by
  rcases seekRun_cases s with ⟨h, -⟩ | h | ⟨h, -⟩ | ⟨-, h⟩ <;> rw [h] <;> rfl
@[simp] theorem seekRun_status_controllerStatus (s : State) : (seekRun s).status.controllerStatus = s.status.controllerStatus := by
  rcases seekRun_cases s with ⟨h, -⟩ | h | ⟨h, -⟩ | ⟨-, h⟩ <;> rw [h] <;> rfl
@[simp] theorem seekRun_status_index (s : State) : (seekRun s).status.index = s.status.index := by
  rcases seekRun_cases s with ⟨h, -⟩ | h | ⟨h, -⟩ | ⟨-, h⟩ <;> rw [h] <;> rfl
@[simp] theorem seekRun_status_driveFault (s : State) : (seekRun s).status.driveFault = s.status.driveFault := by
  rcases seekRun_cases s with ⟨h, -⟩ | h | ⟨h, -⟩ | ⟨-, h⟩ <;> rw [h] <;> rfl
@[simp] theorem seekRun_status_unitReady (s : State) : (seekRun s).status.unitReady = s.status.unitReady := by
  rcases seekRun_cases s with ⟨h, -⟩ | h | ⟨h, -⟩ | ⟨-, h⟩ <;> rw [h] <;> rfl

/-- A seek run from a resting state ends in a resting state. -/
theorem seekRun_seekState_ne (s : State) : (seekRun s).seekState ≠ .seekComplete := by
  rcases seekRun_cases s with ⟨h, hs⟩ | h | ⟨h, -⟩ | ⟨-, h⟩ <;> rw [h] <;> first | exact hs | simp

end Sys2Proof.Machine
end

