-- ==== Sys2Proof/Laws/Sparse.lean ====
section
/-! SUPPORT. The laws of the sparse stores: read after write, write elsewhere, the canonical form kept; byte order; buffers. -/

namespace Sys2Proof.Machine

section Sparse
variable {V : Type} [DecidableEq V] (d : V)

theorem sparseGet_below {bound least : Nat} {m : List (Nat × V)} {k : Nat} (h : sparseWf d bound least m = true)
    (hk : k < least) : sparseGet d m k = d := by
  induction m generalizing least with
  | nil => rfl
  | cons e rest ih =>
    obtain ⟨k', v⟩ := e
    simp only [sparseWf, Bool.and_eq_true, decide_eq_true_eq] at h
    have : k' ≠ k := by omega
    simp only [sparseGet, this, if_false]
    exact ih h.2 (by omega)

theorem sparseGet_set_same {bound least : Nat} {m : List (Nat × V)} (h : sparseWf d bound least m = true) (k : Nat) (v : V) :
    sparseGet d (sparseSet d m k v) k = v := by
  induction m generalizing least with
  | nil => by_cases hv : v = d <;> simp [sparseSet, hv, sparseGet]
  | cons e rest ih =>
    obtain ⟨k', v'⟩ := e
    have h0 := h
    simp only [sparseWf, Bool.and_eq_true, decide_eq_true_eq] at h
    unfold sparseSet
    by_cases h1 : k < k'
    · by_cases hv : v = d
      · have hk : k' ≠ k := by omega
        simp only [h1, hv, if_true, sparseGet, hk, if_false]
        exact sparseGet_below d h.2 (by omega)
      · simp [h1, hv, sparseGet]
    · by_cases h2 : k' = k
      · by_cases hv : v = d
        · subst h2
          simp only [lt_irrefl, if_false, if_true, hv]
          exact sparseGet_below d h.2 (Nat.lt_succ_self _)
        · simp [h2, hv, sparseGet]
      · simp only [h1, h2, if_false, sparseGet]
        exact ih h.2

theorem sparseGet_set_other (m : List (Nat × V)) {k j : Nat} (v : V) (hj : j ≠ k) :
    sparseGet d (sparseSet d m k v) j = sparseGet d m j := by
  induction m with
  | nil => by_cases hv : v = d <;> simp [sparseSet, hv, sparseGet, hj.symm]
  | cons e rest ih =>
    obtain ⟨k', v'⟩ := e
    unfold sparseSet
    split
    · split <;> simp [sparseGet, hj.symm]
    · split
      · rename_i h2
        have : k' ≠ j := by omega
        split <;> simp [sparseGet, hj.symm, this]
      · simp [sparseGet, ih]

theorem sparseWf_weaken {bound least least' : Nat} {m : List (Nat × V)} (h : sparseWf d bound least m = true)
    (hl : least' ≤ least) : sparseWf d bound least' m = true := by
  cases m with
  | nil => rfl
  | cons e rest =>
    simp only [sparseWf, Bool.and_eq_true, decide_eq_true_eq] at h ⊢
    exact ⟨⟨⟨by omega, h.1.1.2⟩, h.1.2⟩, h.2⟩

/-- Writing keeps the canonical form. -/
theorem sparseSet_wf {bound least : Nat} {m : List (Nat × V)} (h : sparseWf d bound least m = true) {k : Nat} (v : V)
    (hk : k < bound) (hl : least ≤ k) : sparseWf d bound least (sparseSet d m k v) = true := by
  induction m generalizing least with
  | nil => by_cases hv : v = d <;> simp [sparseSet, hv, sparseWf, hk, hl]
  | cons e rest ih =>
    obtain ⟨k', v'⟩ := e
    have h0 := h
    simp only [sparseWf, Bool.and_eq_true, decide_eq_true_eq] at h
    obtain ⟨⟨⟨ha, hb⟩, hc⟩, hd⟩ := h
    unfold sparseSet
    by_cases h1 : k < k'
    · by_cases hv : v = d
      · simpa [h1, hv] using h0
      · simp only [h1, hv, if_true, if_false, sparseWf, Bool.and_eq_true, decide_eq_true_eq]
        exact ⟨⟨⟨hl, hk⟩, hv⟩, ⟨⟨by omega, hb⟩, hc⟩, hd⟩
    · by_cases h2 : k' = k
      · subst h2
        by_cases hv : v = d
        · simp only [lt_irrefl, if_false, if_true, hv]
          exact sparseWf_weaken d hd (by omega)
        · simp only [lt_irrefl, if_false, if_true, hv, sparseWf, Bool.and_eq_true, decide_eq_true_eq]
          exact ⟨⟨⟨hl, hk⟩, hv⟩, hd⟩
      · simp only [h1, h2, if_false, sparseWf, Bool.and_eq_true, decide_eq_true_eq]
        exact ⟨⟨⟨ha, hb⟩, hc⟩, ih hd (by omega)⟩

/-- Every entry after a write is an entry from before or the new one. -/
theorem mem_sparseSet {m : List (Nat × V)} {k : Nat} {v : V} {x : Nat × V} (h : x ∈ sparseSet d m k v) : x ∈ m ∨ x = (k, v) := by
  induction m with
  | nil =>
    unfold sparseSet at h
    split at h <;> simp_all
  | cons e rest ih =>
    obtain ⟨k', v'⟩ := e
    unfold sparseSet at h
    split at h
    · split at h
      · exact .inl h
      · rcases List.mem_cons.1 h with h | h
        · exact .inr h
        · exact .inl h
    · split at h
      · split at h
        · exact .inl (List.mem_cons_of_mem _ h)
        · rcases List.mem_cons.1 h with h | h
          · exact .inr h
          · exact .inl (List.mem_cons_of_mem _ h)
      · rcases List.mem_cons.1 h with h | h
        · exact .inl (by simp [h])
        · rcases ih h with h | h
          · exact .inl (List.mem_cons_of_mem _ h)
          · exact .inr h

omit [DecidableEq V] in
/-- What is read is the default or an entry. -/
theorem sparseGet_eq_or_mem (m : List (Nat × V)) (k : Nat) : sparseGet d m k = d ∨ (k, sparseGet d m k) ∈ m := by
  induction m with
  | nil => exact .inl rfl
  | cons e rest ih =>
    obtain ⟨k', v'⟩ := e
    unfold sparseGet
    split
    · rename_i h; subst h; exact .inr (List.mem_cons_self ..)
    · rcases ih with h | h
      · exact .inl h
      · exact .inr (List.mem_cons_of_mem _ h)

end Sparse

/-! ## Memory -/

theorem Memory.read_write_same {m : Memory} (h : m.wf = true) (a : Addr) (w : Word) : (m.write a w).read a = w :=
  sparseGet_set_same _ h _ _

theorem Memory.read_write_other (m : Memory) {a b : Addr} (w : Word) (h : b ≠ a) : (m.write a w).read b = m.read b :=
  sparseGet_set_other _ m w (fun e => h (BitVec.eq_of_toNat_eq e))

theorem Memory.write_wf {m : Memory} (h : m.wf = true) (a : Addr) (w : Word) : (m.write a w).wf = true :=
  sparseSet_wf _ h w a.isLt (Nat.zero_le _)

theorem Memory.storeWords_wf {m : Memory} (h : m.wf = true) (a : Addr) (ws : List Word) : (m.storeWords a ws).wf = true := by
  induction ws generalizing m a with
  | nil => exact h
  | cons w ws ih => exact ih (Memory.write_wf h a w) (a + 1)

/-- Addresses of a buffer: the first, or those of the buffer one further on. -/
theorem addr_succ (a : Addr) (i : Nat) : a + 1 + BitVec.ofNat 32 i = a + BitVec.ofNat 32 (i + 1) := by
  apply BitVec.eq_of_toNat_eq
  have h1 : (1 : Addr).toNat = 1 := rfl
  simp only [BitVec.toNat_add, BitVec.toNat_ofNat, h1]
  omega

theorem addr_ne {a : Addr} {i j : Nat} (hi : i < 2 ^ 32) (hj : j < 2 ^ 32) (h : i ≠ j) :
    a + BitVec.ofNat 32 i ≠ a + BitVec.ofNat 32 j := by
  intro e
  have := congrArg BitVec.toNat e
  simp only [BitVec.toNat_add, BitVec.toNat_ofNat] at this
  have := a.isLt
  omega

theorem addr_zero (a : Addr) : a + BitVec.ofNat 32 0 = a := by simp

/-- Storing words leaves every address outside the buffer alone. -/
theorem Memory.read_storeWords_outside (m : Memory) (a x : Addr) (ws : List Word)
    (h : ∀ i < ws.length, x ≠ a + BitVec.ofNat 32 i) : (m.storeWords a ws).read x = m.read x := by
  induction ws generalizing m a with
  | nil => rfl
  | cons w ws ih =>
    have h0 : x ≠ a := by simpa using h 0 (by simp)
    rw [Memory.storeWords, ih _ _ (fun i hi => by rw [addr_succ]; exact h (i + 1) (by simpa using hi)),
      Memory.read_write_other m w h0]

/-- Storing words puts word `i` at address `a + i`, where no later word of the buffer has that address again (2^32 words on). -/
theorem Memory.read_storeWords_inside {m : Memory} (hm : m.wf = true) (a : Addr) (ws : List Word) {i : Nat}
    (hl : ws.length ≤ i + 2 ^ 32) (hi : i < ws.length) : (m.storeWords a ws).read (a + BitVec.ofNat 32 i) = ws.getD i 0 := by
  induction ws generalizing m a i with
  | nil => simp at hi
  | cons w ws ih =>
    simp only [List.length_cons] at hl hi
    cases i with
    | zero =>
      rw [addr_zero, Memory.storeWords, Memory.read_storeWords_outside, Memory.read_write_same hm]
      · rfl
      · intro j hj e
        rw [addr_succ] at e
        exact addr_ne (i := 0) (j := j + 1) (by omega) (by omega) (by omega) ((addr_zero a).trans e)
    | succ i =>
      rw [← addr_succ, Memory.storeWords, ih (Memory.write_wf hm a w) (a + 1) (by omega) (by omega)]
      rfl

@[simp] theorem Memory.length_loadWords (m : Memory) (a : Addr) (n : Nat) : (m.loadWords a n).length = n := by
  induction n generalizing a with
  | zero => rfl
  | succ n ih => simp [Memory.loadWords, ih]

theorem Memory.loadWords_getD (m : Memory) (a : Addr) {n i : Nat} (h : i < n) :
    (m.loadWords a n).getD i 0 = m.read (a + BitVec.ofNat 32 i) := by
  induction n generalizing a i with
  | zero => omega
  | succ n ih =>
    cases i with
    | zero => simp [Memory.loadWords]
    | succ i => rw [← addr_succ, ← ih (a + 1) (by omega)]; rfl

theorem bufferValid_iff (p : Params) (a : Addr) (n : Nat) :
    bufferValid p a n = true ↔ ∀ i < n, memValid p (a + BitVec.ofNat 32 i) = true := by
  induction n generalizing a with
  | zero => simp [bufferValid]
  | succ n ih =>
    rw [bufferValid, Bool.and_eq_true, ih]
    constructor
    · rintro ⟨h0, h⟩ i hi
      cases i with
      | zero => simpa using h0
      | succ i => rw [← addr_succ]; exact h i (by omega)
    · intro h
      exact ⟨by simpa using h 0 (by omega), fun i hi => by rw [addr_succ]; exact h (i + 1) (by omega)⟩

/-! ## Disk -/

theorem SectorAddr.key_lt (a : SectorAddr) : a.key < 2 ^ 16 := by
  have h1 := a.cylinder.isLt
  have h2 := a.head.isLt
  have h3 := a.sector.isLt
  unfold SectorAddr.key
  omega

theorem SectorAddr.key_inj {a b : SectorAddr} (h : a.key = b.key) : a = b := by
  obtain ⟨c, hd, s⟩ := a
  obtain ⟨c', hd', s'⟩ := b
  have := c.isLt
  have := c'.isLt
  have := hd.isLt
  have := hd'.isLt
  have := s.isLt
  have := s'.isLt
  simp only [SectorAddr.key] at h
  congr 1 <;> apply BitVec.eq_of_toNat_eq <;> omega

theorem Disk.get_set_same {p : Params} {k : Disk} (h : k.wf p = true) (a : SectorAddr) (sec : Sector) :
    (k.set p a sec).get p a = sec :=
  sparseGet_set_same _ h _ _

theorem Disk.get_set_other (p : Params) (k : Disk) {a b : SectorAddr} (sec : Sector) (h : b ≠ a) :
    (k.set p a sec).get p b = k.get p b :=
  sparseGet_set_other _ k sec (fun e => h (SectorAddr.key_inj e))

theorem Disk.set_wf {p : Params} {k : Disk} (h : k.wf p = true) (a : SectorAddr) (sec : Sector) : (k.set p a sec).wf p = true :=
  sparseSet_wf _ h sec a.key_lt (Nat.zero_le _)

/-! ## Byte order -/

@[simp] theorem length_bytesOfWords (ws : List Word) : (bytesOfWords ws).length = 2 * ws.length := by
  induction ws with
  | nil => rfl
  | cons w ws ih => simp [bytesOfWords, ih]; omega

theorem length_wordsOfBytes (bs : List Byte) : (wordsOfBytes bs).length = bs.length / 2 := by
  induction bs using wordsOfBytes.induct with
  | case1 lo hi rest ih => simp only [wordsOfBytes, List.length_cons, ih]; omega
  | case2 bs h =>
    match bs, h with
    | [], _ => rfl
    | [_], _ => simp [wordsOfBytes]
    | _ :: _ :: _, h => exact absurd rfl (h _ _ _)

end Sys2Proof.Machine
end

