-- ==== Sys2Proof/Laws/Transfer.lean ====
section
/-! SUPPORT. The block transfer engine: when a transfer is refused, what it stores, and the bytes and words of a buffer. -/

namespace Sys2Proof.Machine

theorem bufferValid_eq_true (p : Params) (a : Addr) (n : Nat) : bufferValid p a n = true ↔ BufferMapped p a n :=
  bufferValid_iff p a n

/-- A transfer is allowed exactly where the target and every buffer used are valid. -/
theorem checkTransfer_eq_none (withHeader : Bool) (s : State) :
    checkTransfer withHeader s = none ↔
      diskValid s.params (target s) = true ∧ BufferMapped s.params (dataAddress s) (dataWords s.params) ∧
        (withHeader = true → BufferMapped s.params (headerAddress s) (headerWords s.params)) := by
  simp only [← bufferValid_eq_true]
  unfold checkTransfer
  cases diskValid s.params (target s) <;> cases bufferValid s.params (dataAddress s) (dataWords s.params) <;>
    cases bufferValid s.params (headerAddress s) (headerWords s.params) <;> cases withHeader <;> simp

theorem checkTransfer_disk {withHeader : Bool} {s : State} (h : diskValid s.params (target s) = false) :
    checkTransfer withHeader s = some .diskAddressInvalid := by
  simp [checkTransfer, h]

theorem checkTransfer_memory {withHeader : Bool} {s : State} (h : diskValid s.params (target s) = true)
    (hb : ¬ BufferMapped s.params (dataAddress s) (dataWords s.params) ∨
      withHeader = true ∧ ¬ BufferMapped s.params (headerAddress s) (headerWords s.params)) :
    checkTransfer withHeader s = some .memoryAddressInvalid := by
  simp only [← bufferValid_eq_true] at hb
  unfold checkTransfer
  simp only [h]
  rcases hb with hb | ⟨hw, hb⟩
  · simp [hb]
  · cases bufferValid s.params (dataAddress s) (dataWords s.params) <;> simp [hw, hb]

/-- Everything `ReadBlock` can do. -/
theorem readBlock_eq (s : State) :
    readBlock s = match checkTransfer true s with
      | some r => .refused r
      | none => .next (enterBusy { s with mem := readTransferMemory s }) := rfl

theorem readBlock_of_allowed {s : State} (h : FullTransferAllowed s) :
    readBlock s = .next (enterBusy { s with mem := readTransferMemory s }) := by
  rw [readBlock_eq, (checkTransfer_eq_none true s).2 ⟨h.1, h.2.1, fun _ => h.2.2⟩]

theorem readBlock_next {s t : State} (h : readBlock s = .next t) :
    FullTransferAllowed s ∧ t = enterBusy { s with mem := readTransferMemory s } := by
  rw [readBlock_eq] at h
  split at h
  · cases h
  · rename_i hc
    obtain ⟨h1, h2, h3⟩ := (checkTransfer_eq_none true s).1 hc
    cases h
    exact ⟨⟨h1, h2, h3 rfl⟩, rfl⟩

/-- Everything `WriteBlock` can do. -/
theorem writeBlock_eq (writeHeader : Bool) (s : State) :
    writeBlock writeHeader s = match checkTransfer writeHeader s with
      | some r => .refused r
      | none => .next (enterBusy { s with disk := s.disk.set s.params (target s) (writeTransferSector writeHeader s) }) := rfl

theorem writeBlock_of_allowed {writeHeader : Bool} {s : State} (h : DataTransferAllowed s)
    (hh : writeHeader = true → BufferMapped s.params (headerAddress s) (headerWords s.params)) :
    writeBlock writeHeader s =
      .next (enterBusy { s with disk := s.disk.set s.params (target s) (writeTransferSector writeHeader s) }) := by
  rw [writeBlock_eq, (checkTransfer_eq_none writeHeader s).2 ⟨h.1, h.2, hh⟩]

theorem writeBlock_next {writeHeader : Bool} {s t : State} (h : writeBlock writeHeader s = .next t) :
    DataTransferAllowed s ∧ (writeHeader = true → BufferMapped s.params (headerAddress s) (headerWords s.params)) ∧
      t = enterBusy { s with disk := s.disk.set s.params (target s) (writeTransferSector writeHeader s) } := by
  rw [writeBlock_eq] at h
  split at h
  · cases h
  · rename_i hc
    obtain ⟨h1, h2, h3⟩ := (checkTransfer_eq_none writeHeader s).1 hc
    cases h
    exact ⟨⟨h1, h2⟩, h3, rfl⟩

/-! ## Bytes and words of a buffer -/

/-- Word `i` of a byte sequence (R64). -/
theorem wordsOfBytes_getD (bs : List Byte) {i : Nat} (h : i < bs.length / 2) :
    (wordsOfBytes bs).getD i 0 = (bs.getD (2 * i + 1) 0).setWidth 16 <<< 8 ||| (bs.getD (2 * i) 0).setWidth 16 := by
  induction bs using wordsOfBytes.induct generalizing i with
  | case1 lo hi rest ih =>
    cases i with
    | zero => rfl
    | succ i =>
      have h' : i < rest.length / 2 := by simp only [List.length_cons] at h; omega
      have e : 2 * (i + 1) = 2 * i + 1 + 1 := by omega
      rw [e]
      simpa [wordsOfBytes] using ih h'
  | case2 bs hb =>
    match bs, hb with
    | [], _ => simp at h
    | [_], _ => simp at h
    | _ :: _ :: _, hb => exact absurd rfl (hb _ _ _)

/-- Bytes `2 * i` and `2 * i + 1` of a word sequence (R64). -/
theorem bytesOfWords_getD (ws : List Word) {i : Nat} (h : i < ws.length) :
    (bytesOfWords ws).getD (2 * i) 0 = (ws.getD i 0).extractLsb' 0 8 ∧
      (bytesOfWords ws).getD (2 * i + 1) 0 = (ws.getD i 0).extractLsb' 8 8 := by
  induction ws generalizing i with
  | nil => simp at h
  | cons w ws ih =>
    cases i with
    | zero =>
      constructor
      · simp only [bytesOfWords, List.getD_cons_zero, Nat.mul_zero]
        apply BitVec.eq_of_toNat_eq
        simp [BitVec.extractLsb'_toNat]
      · simp only [bytesOfWords, List.getD_cons_zero, List.getD_cons_succ, Nat.mul_zero, Nat.zero_add]
        apply BitVec.eq_of_toNat_eq
        simp [BitVec.extractLsb'_toNat, BitVec.toNat_ushiftRight]
    | succ i =>
      have e : 2 * (i + 1) = 2 * i + 1 + 1 := by omega
      rw [e]
      simpa [bytesOfWords] using ih (i := i) (by simpa using h)

theorem fits_blank (p : Params) : (Sector.blank p).fits p = true := by simp [Sector.fits, Sector.blank]

/-- Every sector the disk gives has the lengths of the geometry. -/
theorem Disk.get_fits {p : Params} {k : Disk} (h : ∀ entry ∈ k, entry.2.fits p = true) (a : SectorAddr) :
    (k.get p a).fits p = true := by
  rcases sparseGet_eq_or_mem (Sector.blank p) k a.key with e | e
  · unfold Disk.get; rw [e]; exact fits_blank p
  · exact h _ e

theorem Sector.fits_iff (p : Params) (sec : Sector) :
    sec.fits p = true ↔ sec.header.length = p.headerBytes ∧ sec.data.length = p.dataBytes := by
  simp [Sector.fits]

/-- The sector a write command commits has the lengths of the geometry. -/
theorem writeTransferSector_fits {s : State} (hp : s.params.wf) (h : ∀ entry ∈ s.disk, entry.2.fits s.params = true)
    (writeHeader : Bool) : (writeTransferSector writeHeader s).fits s.params = true := by
  rw [Sector.fits_iff]
  obtain ⟨-, h1, -, h2, -, -⟩ := hp
  constructor
  · cases writeHeader
    · exact ((Sector.fits_iff _ _).1 (Disk.get_fits h (target s))).1
    · simp [writeTransferSector, headerWords]; omega
  · simp [writeTransferSector, dataWords]; omega

end Sys2Proof.Machine
end

