-- ==== Sys2Proof/Laws/Commands.lean ====
section
/-! SUPPORT. What each dispatched command can do, and the command write around it. -/

namespace Sys2Proof.Machine

/-- Everything a dispatched command can do (R141 to R148). -/
theorem dispatch_cases {c : Command} {s t : State} (h : dispatch c s = .next t) :
    (c = .idle ∧ t = irqClear s) ∨
    ((c = .readChk ∨ c = .readDiag) ∧ FullTransferAllowed s ∧ t = enterBusy { s with mem := readTransferMemory s }) ∨
    (c = .writeChk ∧ DataTransferAllowed s ∧
      t = enterBusy { s with disk := s.disk.set s.params (target s) (writeTransferSector false s) }) ∨
    ((c = .writeFirst ∨ c = .format) ∧ FullTransferAllowed s ∧
      t = enterBusy { s with disk := s.disk.set s.params (target s) (writeTransferSector true s) }) ∨
    (c = .seek ∧ t = logUnhandled 6 s) ∨
    (c = .reset ∧ t = enterBusy (resetFlagsAndPosition s)) := by
  cases c with
  | idle => exact .inl ⟨rfl, by cases h; rfl⟩
  | readChk => exact .inr (.inl ⟨.inl rfl, readBlock_next h⟩)
  | readDiag => exact .inr (.inl ⟨.inr rfl, readBlock_next h⟩)
  | writeChk =>
    obtain ⟨h1, -, h2⟩ := writeBlock_next h
    exact .inr (.inr (.inl ⟨rfl, h1, h2⟩))
  | writeFirst =>
    obtain ⟨h1, h2, h3⟩ := writeBlock_next h
    exact .inr (.inr (.inr (.inl ⟨.inl rfl, ⟨h1.1, h1.2, h2 rfl⟩, h3⟩)))
  | format =>
    obtain ⟨h1, h2, h3⟩ := writeBlock_next h
    exact .inr (.inr (.inr (.inl ⟨.inr rfl, ⟨h1.1, h1.2, h2 rfl⟩, h3⟩)))
  | seek => exact .inr (.inr (.inr (.inr (.inl ⟨rfl, by cases h; rfl⟩))))
  | reset => exact .inr (.inr (.inr (.inr (.inr ⟨rfl, by cases h; rfl⟩))))

/-- An allowed command runs. -/
theorem dispatch_of_allowed {c : Command} {s : State} (h : CommandAllowed c s) : ∃ t, dispatch c s = .next t := by
  cases c with
  | idle => exact ⟨_, rfl⟩
  | readChk => exact ⟨_, readBlock_of_allowed h⟩
  | readDiag => exact ⟨_, readBlock_of_allowed h⟩
  | writeChk => exact ⟨_, writeBlock_of_allowed h (by simp)⟩
  | writeFirst => exact ⟨_, writeBlock_of_allowed ⟨h.1, h.2.1⟩ (fun _ => h.2.2)⟩
  | format => exact ⟨_, writeBlock_of_allowed ⟨h.1, h.2.1⟩ (fun _ => h.2.2)⟩
  | seek => exact ⟨_, rfl⟩
  | reset => exact ⟨_, rfl⟩

/-- A command write with a next state is the dispatched command, the retained word and the seek run. -/
theorem commandWrite_next {r : Result} {w : Word} {t : State} (h : commandWrite r w = .next t) :
    ∃ u, r = .next u ∧ t = seekRun (retain w u) :=
  andThen_eq_next h

/-- What no dispatched command changes. -/
theorem dispatch_frame {c : Command} {s t : State} (h : dispatch c s = .next t) :
    t.params = s.params ∧ t.regs = s.regs ∧ t.seekState = s.seekState ∧ t.now = s.now ∧ t.input = s.input ∧
      t.statusReads = s.statusReads ∧ t.tieCount = s.tieCount := by
  rcases dispatch_cases h with ⟨-, rfl⟩ | ⟨-, -, rfl⟩ | ⟨-, -, rfl⟩ | ⟨-, -, rfl⟩ | ⟨-, rfl⟩ | ⟨-, rfl⟩ <;> simp

/-- The head after a dispatched command: homed by `Reset`, else where it was. -/
theorem dispatch_physicalCylinder {c : Command} {s t : State} (h : dispatch c s = .next t) :
    t.physicalCylinder = if c = .reset then 0 else s.physicalCylinder := by
  rcases dispatch_cases h with ⟨rfl, rfl⟩ | ⟨hc, -, rfl⟩ | ⟨rfl, -, rfl⟩ | ⟨hc, -, rfl⟩ | ⟨rfl, rfl⟩ | ⟨rfl, rfl⟩ <;>
    (try rcases hc with rfl | rfl) <;> simp

/-- The interrupt calls of a dispatched command: one clear by `Idle`, none by the others. -/
theorem dispatch_irq {c : Command} {s t : State} (h : dispatch c s = .next t) :
    (c = .idle ∧ t.irqTrace = s.irqTrace ++ [(s.now, .clear)] ∧ t.irqLine = false) ∨
      (c ≠ .idle ∧ t.irqTrace = s.irqTrace ∧ t.irqLine = s.irqLine) := by
  rcases dispatch_cases h with ⟨rfl, rfl⟩ | ⟨hc, -, rfl⟩ | ⟨rfl, -, rfl⟩ | ⟨hc, -, rfl⟩ | ⟨rfl, rfl⟩ | ⟨rfl, rfl⟩ <;>
    (try rcases hc with rfl | rfl) <;> simp

/-- The code of a well-formed CMD instruction's word is the one of its row (R92). -/
theorem commandOf_of_mask {w : Word} {n : Nat} (h : matchesRow 0x0007 (BitVec.ofNat 16 n) w = true) (hn : n < 8) :
    commandOf w = commandOfCode (BitVec.ofNat 3 n) := by
  have h1 : (cmdField w).toNat = n := of_decide_eq_true ((matchesRow_code w hn).symm.trans h)
  have h2 : cmdField w = BitVec.ofNat 3 n := by
    apply BitVec.eq_of_toNat_eq
    rw [h1, BitVec.toNat_ofNat]
    omega
  rw [commandOf, h2]

end Sys2Proof.Machine
end

