-- ==== Sys2Proof/Laws/Exec.lean ====
section
/-! SUPPORT. Everything an instruction can do, in two cases: it writes a command word, or it is one of the others. -/

namespace Sys2Proof.Machine

/-- An instruction that carries a command word is a command write of some command. -/
theorem exec_commandWrite {i : Instr} {w : Word} (h : commandWord i = some w) :
    ∃ c, ∀ s, exec i s = commandWrite (dispatch c s) w := by
  cases i <;> simp only [commandWord, Option.some.injEq, reduceCtorEq] at h <;> subst h
  case idle => exact ⟨.idle, fun _ => rfl⟩
  case readChk => exact ⟨.readChk, fun _ => rfl⟩
  case readDiag => exact ⟨.readDiag, fun _ => rfl⟩
  case writeChk => exact ⟨.writeChk, fun _ => rfl⟩
  case writeFirst => exact ⟨.writeFirst, fun _ => rfl⟩
  case format => exact ⟨.format, fun _ => rfl⟩
  case seek => exact ⟨.seek, fun _ => rfl⟩
  case cmdReset => exact ⟨.reset, fun _ => rfl⟩
  all_goals exact ⟨commandOf _, fun _ => rfl⟩

/-- A command write with a next state: the dispatched command, then the seek run with the retained word. -/
theorem exec_command_next {i : Instr} {w : Word} {s t : State} (h : commandWord i = some w) (ht : exec i s = .next t) :
    ∃ c u, dispatch c s = .next u ∧ t = seekRun (retain w u) := by
  obtain ⟨c, hc⟩ := exec_commandWrite h
  rw [hc s] at ht
  obtain ⟨u, h1, h2⟩ := commandWrite_next ht
  exact ⟨c, u, h1, h2⟩

/-- Everything an instruction that carries no command word can do. -/
theorem exec_other {i : Instr} {s t : State} (h : commandWord i = none) (ht : exec i s = .next t) :
    (∃ r v, t = { s with regs := r } ∧ i ∈ [Instr.writeHead v, .writeCylinderSector v, .writeSerialLow v, .writeSerialHigh v,
      .writeBlockNumber v, .writeHeaderAddrLow v, .writeHeaderAddrHigh v, .writeDataBufferAddrLow v,
      .writeDataBufferAddrHigh v]) ∨
    (i = .readStatus ∧ t = { s with statusReads := s.statusReads ++ [(s.now, statusWord s.params s.status)] }) ∨
    (i = .busyDone ∧ t = irqRaise { s with status := { s.status with controllerStatus := .done } }) ∨
    (i = .indexStart ∧ t = schedule Config.indexPulseNs .indexEnd { s with status := { s.status with index := true } }) ∨
    (i = .indexEnd ∧ t = schedule Config.rotationNs .indexStart { s with status := { s.status with index := false } }) ∨
    (i = .envReset ∧ t = { resetFlagsAndPosition s with seekState := .waitForStepSet, seekData := 0 }) ∨
    (∃ d, i = .seekBy d ∧ t = seekTo ((s.physicalCylinder : Int) + d) s) := by
  cases i <;> simp only [commandWord, reduceCtorEq] at h <;> cases ht
  case readStatus => exact .inr (.inl ⟨rfl, rfl⟩)
  case busyDone => exact .inr (.inr (.inl ⟨rfl, rfl⟩))
  case indexStart => exact .inr (.inr (.inr (.inl ⟨rfl, rfl⟩)))
  case indexEnd => exact .inr (.inr (.inr (.inr (.inl ⟨rfl, rfl⟩))))
  case envReset => exact .inr (.inr (.inr (.inr (.inr (.inl ⟨rfl, rfl⟩)))))
  case seekBy => exact .inr (.inr (.inr (.inr (.inr (.inr ⟨_, rfl, rfl⟩)))))
  all_goals
    rename_i v
    exact .inl ⟨_, v, rfl, by simp⟩

/-- Everything a step can do (00_scope R9): a delivery, an access, the passing of time, or a store of another agent. -/
theorem step_cases {s t : State} (h : step s = .next t) :
    (∃ k u, takeDue s = some (k, u) ∧ exec (eventInstr k) u = .next t) ∨
    (takeDue s = none ∧ ∃ words rest i, s.input = .access words :: rest ∧ fetchAccess words = .ok i ∧
      exec i { s with input := rest } = .next t) ∨
    (takeDue s = none ∧ ∃ a rest, s.input = .advance a :: rest ∧ t = advanceTime a rest s) ∨
    (takeDue s = none ∧ ∃ a w rest, s.input = .memStore a w :: rest ∧ t = externalStore a w rest s) ∨
    (takeDue s = none ∧ s.input = [] ∧ ∃ e rest, s.pending = e :: rest ∧ t = { s with now := e.due }) := by
  unfold step at h
  split at h
  · rename_i k u hk
    exact .inl ⟨k, u, hk, h⟩
  · rename_i hn
    split at h
    · rename_i hin
      unfold advanceToNextEvent at h
      split at h
      · cases h
      · rename_i e rest he
        cases h
        exact .inr (.inr (.inr (.inr ⟨hn, hin, e, rest, he, rfl⟩)))
    · rename_i a rest hin
      cases h
      exact .inr (.inr (.inl ⟨hn, a, rest, hin, rfl⟩))
    · rename_i a w rest hin
      cases h
      exact .inr (.inr (.inr (.inl ⟨hn, a, w, rest, hin, rfl⟩)))
    · rename_i words rest hin
      split at h
      · cases h
      · rename_i i hi
        exact .inr (.inl ⟨hn, words, rest, i, hin, hi, h⟩)

/-- An access that is fetched decodes, to an instruction that is no event. -/
theorem fetchAccess_ok {words : List Word} {i : Instr} (h : fetchAccess words = .ok i) :
    decode words = .ok i ∧ eventKindOf i = none := by
  unfold fetchAccess at h
  split at h
  · cases h
  · rename_i j hj
    split at h
    · cases h
    · rename_i hk
      cases h
      exact ⟨hj, hk⟩

end Sys2Proof.Machine
end

