-- ==== Sys2Proof/Laws/PerInstr.lean ====
section
/-! SUPPORT. The per-instruction family `Descriptor`: every encoding starts with a descriptor word of the layout the decoder reads. -/

namespace Sys2Proof.Laws.Descriptor

/-- The encoding of `i` begins with a descriptor whose upper byte is 0 and whose format nibble names one of the five formats. -/
def Statement (i : Instr) : Prop :=
  ∃ (d : Word) (operands : List Word), encode i = d :: operands ∧ d.extractLsb' 8 8 = 0 ∧ (d.extractLsb' 4 4).toNat ≤ 4

theorem idle (w : Word) : Statement (.idle w) := ⟨_, _, rfl, rfl, by decide⟩
theorem readChk (w : Word) : Statement (.readChk w) := ⟨_, _, rfl, rfl, by decide⟩
theorem readDiag (w : Word) : Statement (.readDiag w) := ⟨_, _, rfl, rfl, by decide⟩
theorem writeChk (w : Word) : Statement (.writeChk w) := ⟨_, _, rfl, rfl, by decide⟩
theorem writeFirst (w : Word) : Statement (.writeFirst w) := ⟨_, _, rfl, rfl, by decide⟩
theorem format (w : Word) : Statement (.format w) := ⟨_, _, rfl, rfl, by decide⟩
theorem seek (w : Word) : Statement (.seek w) := ⟨_, _, rfl, rfl, by decide⟩
theorem cmdReset (w : Word) : Statement (.cmdReset w) := ⟨_, _, rfl, rfl, by decide⟩
theorem stepSet (w : Word) : Statement (.stepSet w) := ⟨_, _, rfl, rfl, by decide⟩
theorem stepRelease (w : Word) : Statement (.stepRelease w) := ⟨_, _, rfl, rfl, by decide⟩
theorem dirIn (w : Word) : Statement (.dirIn w) := ⟨_, _, rfl, rfl, by decide⟩
theorem dirAway (w : Word) : Statement (.dirAway w) := ⟨_, _, rfl, rfl, by decide⟩
theorem writeCommand (w : Word) : Statement (.writeCommand w) := ⟨_, _, rfl, rfl, by decide⟩
theorem writeHead (w : Word) : Statement (.writeHead w) := ⟨_, _, rfl, rfl, by decide⟩
theorem writeCylinderSector (w : Word) : Statement (.writeCylinderSector w) := ⟨_, _, rfl, rfl, by decide⟩
theorem writeSerialLow (w : Word) : Statement (.writeSerialLow w) := ⟨_, _, rfl, rfl, by decide⟩
theorem writeSerialHigh (w : Word) : Statement (.writeSerialHigh w) := ⟨_, _, rfl, rfl, by decide⟩
theorem writeBlockNumber (w : Word) : Statement (.writeBlockNumber w) := ⟨_, _, rfl, rfl, by decide⟩
theorem writeHeaderAddrLow (w : Word) : Statement (.writeHeaderAddrLow w) := ⟨_, _, rfl, rfl, by decide⟩
theorem writeHeaderAddrHigh (w : Word) : Statement (.writeHeaderAddrHigh w) := ⟨_, _, rfl, rfl, by decide⟩
theorem writeDataBufferAddrLow (w : Word) : Statement (.writeDataBufferAddrLow w) := ⟨_, _, rfl, rfl, by decide⟩
theorem writeDataBufferAddrHigh (w : Word) : Statement (.writeDataBufferAddrHigh w) := ⟨_, _, rfl, rfl, by decide⟩
theorem readStatus : Statement .readStatus := ⟨_, _, rfl, rfl, by decide⟩
theorem busyDone : Statement .busyDone := ⟨_, _, rfl, rfl, by decide⟩
theorem indexStart : Statement .indexStart := ⟨_, _, rfl, rfl, by decide⟩
theorem indexEnd : Statement .indexEnd := ⟨_, _, rfl, rfl, by decide⟩
theorem envReset : Statement .envReset := ⟨_, _, rfl, rfl, by decide⟩
theorem seekBy (delta : Int) : Statement (.seekBy delta) := ⟨_, _, rfl, rfl, by decide⟩

end Sys2Proof.Laws.Descriptor
end

