-- ==== Sys2Proof/Laws/Run.lean ====
section
/-! SUPPORT. Runs of the machine: the equations of the host's `Core.run`, and how runs and steps compose. -/

namespace Sys2Proof.Machine

theorem core_run_zero (M : Host.Core) (s : M.State) : M.run 0 s = .next s := rfl

theorem core_run_succ (M : Host.Core) (k : Nat) (s t : M.State) (h : M.step s = .next t) : M.run (k + 1) s = M.run k t := by
  rw [Host.Core.run, h]

theorem core_run_succ_eq (M : Host.Core) (k : Nat) (s t : M.State) (h : M.run (k + 1) s = .next t) :
    ∃ u, M.step s = .next u ∧ M.run k u = .next t := by
  cases hs : M.step s with
  | next u => exact ⟨u, rfl, (core_run_succ M k s u hs).symm.trans h⟩
  | fault r => rw [Host.Core.run, hs] at h; cases h
  | refused r => rw [Host.Core.run, hs] at h; cases h

theorem core_run_add (M : Host.Core) (a b : Nat) (s t : M.State) (h : M.run a s = .next t) : M.run (a + b) s = M.run b t := by
  induction a generalizing s with
  | zero => cases h; rw [Nat.zero_add]
  | succ a ih =>
    obtain ⟨u, hu, hr⟩ := core_run_succ_eq M a s t h
    rw [show a + 1 + b = (a + b) + 1 by omega, core_run_succ M _ s u hu]
    exact ih u hr

/-- One step of this machine, then the rest of the run. -/
theorem run_step {s t : State} (h : step s = .next t) (k : Nat) : Host.Core.run core (k + 1) s = Host.Core.run core k t :=
  core_run_succ core k s t h

/-- A run of at least one step begins with a step that answers a next state. -/
theorem run_first {s t : State} {k : Nat} (h : Host.Core.run core (k + 1) s = .next t) :
    ∃ u, step s = .next u ∧ Host.Core.run core k u = .next t :=
  core_run_succ_eq core k s t h

/-- Two runs, one after the other. -/
theorem run_then {s t : State} {a : Nat} (b : Nat) (h : Host.Core.run core a s = .next t) :
    Host.Core.run core (a + b) s = Host.Core.run core b t :=
  core_run_add core a b s t h

end Sys2Proof.Machine
end

