-- ==== Sys2Proof/Tests/Slice0.lean ====
section
/-! SUPPORT. The model's own tests. Expected values are those of spec/95_test_vectors.md (the vector is named) or worked out by hand from
the rule named; each test runs at most one step. At the end, for every statement with hypotheses, a state and operands that meet them. -/

namespace Sys2Proof.Tests

open Sys2Proof Sys2Proof.Machine

/-! ## Small states -/

/-- The toy sizes of spec/95_test_vectors.md: 4 header bytes, 8 data bytes. -/
def toyParams : Params := { Params.default with headerBytes := 4, dataBytes := 8 }

/-- The common start of V-CMD-1 to V-CMD-8: target (0,0,0), data at 0x100, header at 0x200, time 2000, status 0x90, with words in both
buffers and a listed sector (0,0,0). -/
def toy : State where
  params := toyParams
  regs := { HostRegs.zero with dataBufferLow := 0x100, headerAddressLow := 0x200 }
  physicalCylinder := 0
  status := resetStatus
  seekState := .waitForStepSet
  seekData := 0
  pending := [⟨20001100, .indexStart⟩]
  now := 2000
  irqLine := false
  irqTrace := []
  log := []
  mem := [(0x100, 0x0A0B), (0x101, 0x0C0D), (0x102, 0x0E0F), (0x103, 0x1011), (0x200, 0x7777), (0x201, 0x8888)]
  disk := [(0, ⟨[0xDE, 0xAD, 0xBE, 0xEF], [0, 1, 2, 3, 4, 5, 6, 7]⟩)]
  input := []
  statusReads := []
  tieCount := 0

/-- `toy` in the middle of a pulse, with the head on cylinder 5. -/
def armed : State :=
  { toy with
    seekState := .waitForStepRelease, seekData := 0x001E, physicalCylinder := 5
    status := { toy.status with trackZero := false } }

/-- `toy` while Busy. -/
def busy : State :=
  { toy with
    status := { toy.status with controllerStatus := .busy }
    pending := [⟨1002000, .busyDone⟩, ⟨20001100, .indexStart⟩] }

/-- `busy` at the time its completion is due. -/
def busyDue : State := { busy with now := 1002000 }

/-- `toy` with only the words 0x100 to 0x103 and 0x200 to 0x201 behind the Memory Port. -/
def smallMemory : State := { toy with params := { toyParams with memRanges := [⟨0x100, 0x103⟩, ⟨0x200, 0x201⟩] } }

/-- The next state of a result, where there is one. -/
def after (r : Result) : State :=
  match r with
  | .next t => t
  | .fault _ => toy
  | .refused _ => toy

/-- Whether a result is this next state. -/
def answers (r : Result) (t : State) : Bool :=
  match r with
  | .next u => decide (u = t)
  | .fault _ => false
  | .refused _ => false

theorem eq_of_answers {r : Result} {t : State} (h : answers r t = true) : r = .next t := by
  cases r with
  | next u => exact congrArg _ (of_decide_eq_true h)
  | fault x => cases h
  | refused x => cases h

/-- The status word of a state. -/
def statusOf (s : State) : Word := statusWord s.params s.status

/-! ## WellFormed: an ill-formed term for each check -/

theorem test_wf_refuses_idle : (Instr.idle 0x0001).wf = false := by decide
theorem test_wf_refuses_readChk : (Instr.readChk 0x0003).wf = false := by decide
theorem test_wf_refuses_readDiag : (Instr.readDiag 0x0000).wf = false := by decide
theorem test_wf_refuses_writeChk : (Instr.writeChk 0x0007).wf = false := by decide
theorem test_wf_refuses_writeFirst : (Instr.writeFirst 0x0014).wf = true ∧ (Instr.writeFirst 0x0010).wf = false := by decide
theorem test_wf_refuses_format : (Instr.format 0x0001).wf = false := by decide
theorem test_wf_refuses_seek : (Instr.seek 0x0002).wf = false := by decide
theorem test_wf_refuses_cmdReset : (Instr.cmdReset 0x0006).wf = false := by decide
theorem test_wf_refuses_stepSet : (Instr.stepSet 0xFFEF).wf = false := by decide
theorem test_wf_refuses_stepRelease : (Instr.stepRelease 0x0010).wf = false := by decide
theorem test_wf_refuses_dirIn : (Instr.dirIn 0x0008).wf = false := by decide
theorem test_wf_refuses_dirAway : (Instr.dirAway 0xFFF7).wf = false := by decide

/-! ## Decoding: a word written out from the spec's encoding for every constructor

CMD (R91, R92): the command word has its code in bits 2:0; V-ENC-11 to V-ENC-19 where named. The first word is the descriptor of log 7. -/

/-- V-ENC-11; bits 15:5 are ignored. -/
theorem test_decode_idle : decode [0x0020, 0b1111111111100000] = .ok (.idle 0xFFE0) := by decide
/-- V-ENC-18. -/
theorem test_decode_readChk : decode [0x0020, 0b1111111111100001] = .ok (.readChk 0xFFE1) := by decide
theorem test_decode_readDiag : decode [0x0020, 0b0000000000000010] = .ok (.readDiag 0x0002) := by decide
theorem test_decode_writeChk : decode [0x0020, 0b0000000000001011] = .ok (.writeChk 0x000B) := by decide
/-- V-ENC-12. -/
theorem test_decode_writeFirst : decode [0x0020, 0b0000000000000100] = .ok (.writeFirst 0x0004) := by decide
theorem test_decode_format : decode [0x0020, 0b0000000000010101] = .ok (.format 0x0015) := by decide
/-- V-ENC-17. -/
theorem test_decode_seek : decode [0x0020, 0b0000000000000110] = .ok (.seek 0x0006) := by decide
/-- V-ENC-13. -/
theorem test_decode_cmdReset : decode [0x0020, 0b0000000000000111] = .ok (.cmdReset 0x0007) := by decide
/-- V-ENC-16: bit 4. -/
theorem test_decode_stepSet : decode [0x0010, 0b0000000000010110] = .ok (.stepSet 0x0016) := by decide
/-- V-ENC-17. -/
theorem test_decode_stepRelease : decode [0x0010, 0b0000000000000110] = .ok (.stepRelease 0x0006) := by decide
/-- V-ENC-16: bit 3 is 0. -/
theorem test_decode_dirIn : decode [0x0011, 0b0000000000010110] = .ok (.dirIn 0x0016) := by decide
/-- V-ENC-15: bit 3. -/
theorem test_decode_dirAway : decode [0x0011, 0b0000000000001110] = .ok (.dirAway 0x000E) := by decide
/-- Selectors of R103, the words of V-REG-1 to V-REG-11. -/
theorem test_decode_writeCommand : decode [0b0000, 0x0004] = .ok (.writeCommand 0x0004) := by decide
theorem test_decode_writeHead : decode [0b0001, 0xFFFD] = .ok (.writeHead 0xFFFD) := by decide
theorem test_decode_writeCylinderSector : decode [0b0010, 0x0543] = .ok (.writeCylinderSector 0x0543) := by decide
theorem test_decode_writeSerialLow : decode [0b0011, 0x1234] = .ok (.writeSerialLow 0x1234) := by decide
theorem test_decode_writeSerialHigh : decode [0b0100, 0xABCD] = .ok (.writeSerialHigh 0xABCD) := by decide
theorem test_decode_writeBlockNumber : decode [0b0101, 0x0042] = .ok (.writeBlockNumber 0x0042) := by decide
theorem test_decode_writeHeaderAddrLow : decode [0b0110, 0xF800] = .ok (.writeHeaderAddrLow 0xF800) := by decide
theorem test_decode_writeHeaderAddrHigh : decode [0b0111, 0xFFFF] = .ok (.writeHeaderAddrHigh 0xFFFF) := by decide
theorem test_decode_writeDataBufferAddrLow : decode [0b1000, 0xDF45] = .ok (.writeDataBufferAddrLow 0xDF45) := by decide
theorem test_decode_writeDataBufferAddrHigh : decode [0b1001, 0xFFFE] = .ok (.writeDataBufferAddrHigh 0xFFFE) := by decide
theorem test_decode_readStatus : decode [0b1010] = .ok .readStatus := by decide
/-- Event tags of R104. -/
theorem test_decode_busyDone : decode [0x0030] = .ok .busyDone := by decide
theorem test_decode_indexStart : decode [0x0031] = .ok .indexStart := by decide
theorem test_decode_indexEnd : decode [0x0032] = .ok .indexEnd := by decide
/-- Environment tags of R110. -/
theorem test_decode_envReset : decode [0x0040] = .ok .envReset := by decide
/-- A signed operand of two words, 0x00010005. -/
theorem test_decode_seekBy : decode [0x0041, 0x0005, 0x0001] = .ok (.seekBy 65541) := by decide
/-- There is no selector 11 (R103) and no fourth event (R104). -/
theorem test_decode_refuses :
    decode [0x000B, 0] = .error .unknownSelector ∧ decode [0x0033] = .error .unknownEvent ∧ decode [0x0042] =
      .error .unknownEnvironmentOperation ∧ decode [0x0021, 0] = .error .unknownView ∧ decode [0x0050] = .error .unknownFormat ∧
      decode [0x0100] = .error .reservedDescriptorBits ∧ decode [] = .error .emptyAccess := by decide
/-- The opcode table's numbering: a 16-bit row is a command word, a selector row the descriptor. -/
theorem test_decode_table_words :
    decodeTableWord 16 0x0005 = some (.format 0x0005) ∧ decodeTableWord 8 0x05 = some (.writeBlockNumber 0) ∧
      decodeTableWord 32 0x05430002 = some (.writeCylinderSector 0x0543) := by decide
/-- A word placed for the next step is what that step runs, an access and an event. -/
theorem test_withFetchWord :
    step (State.reset.withFetchWord 16 0x0006) = exec (.seek 0x0006) State.reset ∧
      step (State.reset.withFetchWord 32 0x00000031) = exec .indexStart State.reset := ⟨rfl, rfl⟩

/-! ## Encoding vectors -/

/-- V-ENC-9, V-ENC-10, and the bit of each flag (V-ENC-3 to V-ENC-7). -/
theorem test_statusWord :
    statusWord toyParams ⟨.busy, false, true, false, false, true⟩ = 0x0097 ∧
      statusWord toyParams ⟨.done, true, false, false, true, true⟩ = 0x00C8 ∧
      statusWord toyParams ⟨.done, false, false, true, false, false⟩ = 0x0020 := by decide
/-- V-ENC-14, V-ENC-15, V-ENC-19: `cmd`, `dir`, `step`. -/
theorem test_command_word_fields :
    (commandOf 0x001E, dirBit 0x001E, stepBit 0x001E) = (.seek, true, true) ∧
      (commandOf 0x000E, dirBit 0x000E, stepBit 0x000E) = (.seek, true, false) ∧
      (commandOf 0x0019, dirBit 0x0019, stepBit 0x0019) = (.readChk, true, true) := by decide
/-- V-ENC-21, V-ENC-22, V-ENC-25, V-ENC-26. -/
theorem test_address_transforms :
    unfrob toyParams 0x03FF = 0xFFFF ∧ unfrob toyParams 0x0400 = 0xF800 ∧ unfrob toyParams 0xDF45 = 0x2345 ∧
      invertHigh 0x1234 = 0xEDCB := by decide
/-- A table entry, and one that does not map back (log 16). -/
theorem test_unfrob_table :
    unfrob { toyParams with unfrobTable := [(0x0001, 0x0002), (0x0002, 0x0001)] } 0x0001 = 0x0002 ∧
      unfrob { toyParams with unfrobTable := [(0x0001, 0x0002)] } 0x0001 = 0x0001 := by decide
/-- V-ENC-32, V-ENC-33, V-ENC-34, V-ENC-35. -/
theorem test_packed_word :
    (cylSecCylinder 0xC9FD, cylSecHead 0xC9FD, cylSecSector 0xC9FD) = (201, 7, 29) ∧
      (cylSecCylinder 0x00E0, cylSecHead 0x00E0, cylSecSector 0x00E0) = (0, 7, 0) ∧
      (cylSecCylinder 0x001F, cylSecHead 0x001F, cylSecSector 0x001F) = (0, 0, 31) ∧
      (cylSecCylinder 0x0100, cylSecHead 0x0100, cylSecSector 0x0100) = (1, 0, 0) := by decide

/-- `PORT_MAP` (R5, R103): an address for each of the selectors 0 to 10, none for others; the values are log 30's. -/
theorem test_busAddress : busAddress toyParams 10 = some 10 ∧ busAddress toyParams 11 = none ∧
    busAddress { toyParams with portMap := { toyParams.portMap with head := 0xC1 } } 1 = some 0xC1 := by decide

/-! ## Register operations -/

/-- V-REG-1. -/
theorem test_writeCylinderSector : target (after (exec (.writeCylinderSector 0x0543) toy)) = ⟨5, 2, 3⟩ := by decide
/-- V-REG-2: bits 2:0 of 0xFFFD. -/
theorem test_writeHead : (after (exec (.writeHead 0xFFFD) toy)).regs = { toy.regs with head := 5 } := by decide
/-- V-REG-5 and V-REG-9, on the other half as it stands. -/
theorem test_writeDataBufferAddrLow : dataAddress (after (exec (.writeDataBufferAddrLow 0x7C00) toy)) = 0x00008000 := by decide
theorem test_writeDataBufferAddrHigh : dataAddress (after (exec (.writeDataBufferAddrHigh 0xFFFE) toy)) = 0x00010100 := by decide
/-- V-REG-11, V-REG-8. -/
theorem test_writeHeaderAddrLow : (after (exec (.writeHeaderAddrLow 0xF800) toy)).regs =
    { toy.regs with headerAddressLow := 0x0400 } := by decide
theorem test_writeHeaderAddrHigh : headerAddress (after (exec (.writeHeaderAddrHigh 0x0000) toy)) = 0xFFFF0200 := by decide
/-- V-REG-10. -/
theorem test_writeSerialLow : (after (exec (.writeSerialLow 0x1234) toy)).regs = { toy.regs with serialNumberLow := 0x1234 } := by decide
theorem test_writeSerialHigh : (after (exec (.writeSerialHigh 0xABCD) toy)).regs = { toy.regs with serialNumberHigh := 0xABCD } := by
  decide
theorem test_writeBlockNumber : (after (exec (.writeBlockNumber 0x0042) toy)).regs = { toy.regs with blockNumber := 0x0042 } := by decide
/-- V-REG-12: the status word 0x0090 with the line raised, which stays raised. -/
theorem test_readStatus : exec .readStatus { toy with irqLine := true } =
    .next { toy with irqLine := true, statusReads := [(2000, 0x0090)] } := rfl

/-! ## Commands -/

/-- V-CMD-1: one clear in the trace, nothing else (the retained word is 0 already). -/
theorem test_idle : exec (.idle 0x0000) toy = .next { toy with irqTrace := [(2000, .clear)] } := rfl
/-- V-CMD-2, memory by R64: the words of `toy`'s sector (0,0,0). -/
theorem test_readChk_memory : (after (exec (.readChk 0x0001) toy)).mem =
    [(0x100, 0x0100), (0x101, 0x0302), (0x102, 0x0504), (0x103, 0x0706), (0x200, 0xADDE), (0x201, 0xEFBE)] := by decide
theorem test_readChk_busy : statusOf (after (exec (.readChk 0x0001) toy)) = 0x0097 ∧
    (after (exec (.readChk 0x0001) toy)).pending = [⟨1002000, .busyDone⟩, ⟨20001100, .indexStart⟩] := by decide
/-- V-CMD-3. -/
theorem test_readDiag : (after (exec (.readDiag 0x0002) toy)).mem = (after (exec (.readChk 0x0001) toy)).mem ∧
    statusOf (after (exec (.readDiag 0x0002) toy)) = 0x0097 := by decide
/-- V-CMD-4, V-BLK-2: the header is kept. -/
theorem test_writeChk : (after (exec (.writeChk 0x0003) toy)).disk =
    [(0, ⟨[0xDE, 0xAD, 0xBE, 0xEF], [0x0B, 0x0A, 0x0D, 0x0C, 0x0F, 0x0E, 0x11, 0x10]⟩)] := by decide
/-- V-CMD-5, V-BLK-3: the header is written. -/
theorem test_writeFirst : (after (exec (.writeFirst 0x0004) toy)).disk =
    [(0, ⟨[0x77, 0x77, 0x88, 0x88], [0x0B, 0x0A, 0x0D, 0x0C, 0x0F, 0x0E, 0x11, 0x10]⟩)] := by decide
/-- V-CMD-6. -/
theorem test_format : (after (exec (.format 0x0005) toy)).disk = (after (exec (.writeFirst 0x0004) toy)).disk ∧
    statusOf (after (exec (.format 0x0005) toy)) = 0x0097 := by decide
/-- V-CMD-7: a record in the log, the word retained, no seek. -/
theorem test_seek : exec (.seek 0x0006) toy = .next { toy with log := [.unhandled 6], seekData := 0x0006 } := rfl
/-- V-CMD-8. -/
theorem test_cmdReset : statusOf (after (exec (.cmdReset 0x0007) toy)) = 0x0097 ∧
    (after (exec (.cmdReset 0x0007) toy)).pending = [⟨1002000, .busyDone⟩, ⟨20001100, .indexStart⟩] := by decide
/-- V-CMD-9, its last write: the flags and the position are reset, then the pulse completes and the clamp holds the head on 0. -/
theorem test_cmdReset_ends_pulse : statusOf (after (exec (.cmdReset 0x0007) armed)) = 0x00D7 ∧
    (after (exec (.cmdReset 0x0007) armed)).physicalCylinder = 0 ∧ (after (exec (.cmdReset 0x0007) armed)).irqLine = true := by decide
/-- V-CMD-10, its second write, on `armed` (head on 5): the read is made, and the head moves to 6. -/
theorem test_writeCommand : statusOf (after (exec (.writeCommand 0x0009) armed)) = 0x00C7 ∧
    (after (exec (.writeCommand 0x0009) armed)).physicalCylinder = 6 := by decide
/-- V-CMD-11: bits 15:5 are ignored and retained. -/
theorem test_writeCommand_retains : (after (exec (.writeCommand 0xFFE1) toy)).seekData = 0xFFE1 ∧
    statusOf (after (exec (.writeCommand 0xFFE1) toy)) = 0x0097 := by decide
/-- V-BLK-6: a sector number the drive lacks. -/
theorem test_refused_target : exec (.readChk 0x0001) { toy with regs := { toy.regs with cylinder := 5, sector := 30 } } =
    .refused .diskAddressInvalid := rfl
/-- V-BLK-4: the header wins where the buffers overlap. -/
theorem test_overlap : (after (exec (.readChk 0x0001) { toy with
    regs := { toy.regs with dataBufferLow := 0x500, headerAddressLow := 0x502 }, mem := []
    disk := [(0, ⟨[0xAA, 0xBB, 0xCC, 0xDD], [1, 2, 3, 4, 5, 6, 7, 8]⟩)] })).mem =
      [(0x500, 0x0201), (0x501, 0x0403), (0x502, 0xBBAA), (0x503, 0xDDCC)] := by decide
/-- V-BLK-5: addresses wrap at 2^32. -/
theorem test_address_wrap : (after (exec (.readChk 0x0001) { toy with
    regs := { toy.regs with dataBufferLow := 0xFFFE, dataBufferHigh := 0xFFFF }, mem := []
    disk := [(0, ⟨[0, 0, 0, 0], [1, 2, 3, 4, 5, 6, 7, 8]⟩)] })).mem =
      [(0, 0x0605), (1, 0x0807), (0xFFFFFFFE, 0x0201), (0xFFFFFFFF, 0x0403)] := by decide

/-! ## Seek -/

/-- V-SEEK-10, first write; the head and the line stay. -/
theorem test_stepSet : exec (.stepSet 0x001E) { toy with log := [], status := { toy.status with seekComplete := true } } =
    .next { toy with log := [.unhandled 6], seekData := 0x001E, seekState := .waitForStepRelease } := rfl
/-- V-SEEK-10, second write, from cylinder 5. -/
theorem test_stepRelease : statusOf (after (exec (.stepRelease 0x000E) armed)) = 0x00C0 ∧
    (after (exec (.stepRelease 0x000E) armed)).physicalCylinder = 6 ∧
    (after (exec (.stepRelease 0x000E) armed)).irqTrace = [(2000, .raise)] := by decide
/-- V-SEEK-11: the direction is that of the releasing word. -/
theorem test_dirIn : (after (exec (.dirIn 0x0006) armed)).physicalCylinder = 4 := by decide
theorem test_dirAway : (after (exec (.dirAway 0x000E) { armed with physicalCylinder := 201 })).physicalCylinder = 201 := by decide
/-- V-SEEK-13, fourth word: an `Idle` that completes a pulse clears the line, then raises it. -/
theorem test_idle_ends_pulse : (after (exec (.idle 0x0000) armed)).irqTrace = [(2000, .clear), (2000, .raise)] ∧
    (after (exec (.idle 0x0000) armed)).irqLine = true := by decide
/-- V-SEEK-3, V-SEEK-5, V-SEEK-9 in turn. -/
theorem test_seekBy : (after (exec (.seekBy (-7)) armed)).status.trackZero = true ∧
    (after (exec (.seekBy 2) { armed with physicalCylinder := 200 })).physicalCylinder = 201 ∧
    (after (exec (.seekBy 0) { armed with physicalCylinder := 7 })).physicalCylinder = 7 := by decide
/-- V-SEEK-8. -/
theorem test_seekBy_one_cylinder :
    (after (exec (.seekBy 3) { toy with params := { toyParams with cylCount := 1 } })).physicalCylinder = 0 := by decide

/-! ## Events, time and reset -/

/-- V-EV-2: at 1,002,000 the completion is delivered. -/
theorem test_busyDone : step busyDue = .next { busyDue with
    status := toy.status, pending := [⟨20001100, .indexStart⟩], irqLine := true, irqTrace := [(1002000, .raise)] } := rfl
/-- V-EV-1 at 20,001,100 and at 1,100. -/
theorem test_indexStart : step { toy with now := 20001100 } = .next { toy with
    now := 20001100, status := { toy.status with index := true }, pending := [⟨20002200, .indexEnd⟩] } := rfl
theorem test_indexEnd : (after (step { State.reset with now := 1100 })).pending = [⟨20001100, .indexStart⟩] ∧
    statusOf (after (step { State.reset with now := 1100 })) = 0x0090 := by decide
/-- V-EV-4, on a machine in the middle of a pulse; R251 (c): nothing pending is cancelled. -/
theorem test_envReset : exec .envReset armed = .next toy := rfl
/-- V-EV-1 at 0: the status word after construction. -/
theorem test_reset_status : statusOf State.reset = 0x0098 := by decide
/-- R207: time stops at the event that is due on the way. -/
theorem test_advance : step { toy with input := [.advance 20001101] } =
    .next { toy with now := 20001100, input := [.advance 20001101] } := rfl

/-! ## Witnesses: for every statement with hypotheses, a state and operands that meet them all together -/

theorem inv_toy : Inv toy := by constructor <;> decide
theorem inv_armed : Inv armed := by constructor <;> decide
theorem inv_busy : Inv busy := by constructor <;> decide
theorem inv_busyDue : Inv busyDue := by constructor <;> decide
theorem inv_smallMemory : Inv smallMemory := by constructor <;> decide

/-- `toy` with an access at the front of its inputs, and with an event due on the way of an `advance`. -/
def toyAccess (words : List Word) : State := { toy with input := [.access words] }
def toyAdvance (t : Nat) : State := { toy with input := [.advance t] }

theorem inv_toyAccess (words : List Word) : Inv (toyAccess words) :=
  ⟨inv_toy.params, inv_toy.position, inv_toy.trackZero, inv_toy.driveFault, inv_toy.unitReady, inv_toy.seekState, inv_toy.oneIndexEvent,
    inv_toy.indexEnds, inv_toy.busyEnds, inv_toy.sorted, inv_toy.notLate, inv_toy.memory, inv_toy.disk, inv_toy.sectors⟩
theorem inv_toyAdvance (t : Nat) : Inv (toyAdvance t) :=
  ⟨inv_toy.params, inv_toy.position, inv_toy.trackZero, inv_toy.driveFault, inv_toy.unitReady, inv_toy.seekState, inv_toy.oneIndexEvent,
    inv_toy.indexEnds, inv_toy.busyEnds, inv_toy.sorted, inv_toy.notLate, inv_toy.memory, inv_toy.disk, inv_toy.sectors⟩

theorem full_toy : FullTransferAllowed toy := by unfold FullTransferAllowed BufferMapped; decide
theorem data_toy : DataTransferAllowed toy := by unfold DataTransferAllowed BufferMapped; decide
/-- The buffers fill the valid memory to its last word. -/
theorem full_smallMemory : FullTransferAllowed smallMemory := by unfold FullTransferAllowed BufferMapped; decide

theorem witness_DecodeEncodeRoundTrip : (Instr.idle 0xFFF8).wf = true ∧ (Instr.cmdReset 0xFFFF).wf = true ∧
    (Instr.stepSet 0x0010).wf = true ∧ (Instr.seekBy (-32769)).wf = true := by decide

theorem witness_DecodedInstructionsAreWellFormed : decode [0x0020, 0xFFE1] = .ok (.readChk 0xFFE1) := by decide

theorem witness_StepRunsTheDecodedAccess :
    (∀ e ∈ (toyAccess [0x0020, 0x0004]).pending, (toyAccess [0x0020, 0x0004]).now < e.due) ∧
      (toyAccess [0x0020, 0x0004]).input = .access [0x0020, 0x0004] :: [] ∧
      decode [0x0020, 0x0004] = .ok (.writeFirst 0x0004) ∧ (Instr.writeFirst 0x0004).wf = true ∧
      eventKindOf (.writeFirst 0x0004) = none := by decide

theorem witness_StepDeliversADueEvent : Inv busyDue ∧ ∃ e ∈ busyDue.pending, e.due ≤ busyDue.now := ⟨inv_busyDue, by decide⟩

/-- Both clauses: a time up to which nothing is due (the boundary, the due time itself), and one past it. -/
theorem witness_StepAdvancesTime :
    (Inv (toyAdvance 20001100) ∧ (∀ e ∈ (toyAdvance 20001100).pending, (toyAdvance 20001100).now < e.due) ∧
      (toyAdvance 20001100).input = .advance 20001100 :: [] ∧ (toyAdvance 20001100).now < 20001100 ∧
      ∀ e ∈ (toyAdvance 20001100).pending, 20001100 ≤ e.due) ∧
    (Inv (toyAdvance 20001101) ∧ (∀ e ∈ (toyAdvance 20001101).pending, (toyAdvance 20001101).now < e.due) ∧
      (toyAdvance 20001101).input = .advance 20001101 :: [] ∧ (toyAdvance 20001101).now < 20001101 ∧
      ∃ e ∈ (toyAdvance 20001101).pending, e.due < 20001101) :=
  ⟨⟨inv_toyAdvance _, by decide⟩, ⟨inv_toyAdvance _, by decide⟩⟩

theorem witness_NeverQuiescent : Inv toy ∧ ∀ words rest, toy.input ≠ .access words :: rest :=
  ⟨inv_toy, fun _ _ h => by cases h⟩

theorem witness_TimeMovesOnlyForwardAndOnlyByAdvance :
    Inv (toyAccess [0x000A]) ∧ step (toyAccess [0x000A]) = .next { toy with statusReads := [(2000, 0x0090)] } ∧
      nextInstr (toyAccess [0x000A]) ≠ none :=
  ⟨inv_toyAccess _, rfl, by decide⟩

theorem witness_CommandRowsAreTheWriteOfTheirWord :
    commandWord (.dirAway 0x001E) = some 0x001E ∧ (Instr.dirAway 0x001E).wf = true := by decide

theorem witness_AllowedCommandWritesComplete :
    commandWord (.writeFirst 0x0004) = some 0x0004 ∧ (Instr.writeFirst 0x0004).wf = true ∧
      CommandAllowed (commandOf 0x0004) smallMemory := ⟨by decide, by decide, full_smallMemory⟩

/-- Clause 1: the first sector number that the drive lacks. -/
theorem witness_InvalidTransfersAreRefused_disk :
    commandWord (.format 0x0005) = some 0x0005 ∧ (Instr.format 0x0005).wf = true ∧
      commandOf 0x0005 ∈ [Command.readChk, .readDiag, .writeChk, .writeFirst, .format] ∧
      diskValid toyParams ⟨201, 7, 30⟩ = false ∧ diskValid toyParams ⟨201, 7, 29⟩ = true ∧
      target { toy with regs := { toy.regs with cylinder := 201, head := 7, sector := 30 } } = ⟨201, 7, 30⟩ := by decide

/-- Clause 2: a data buffer whose last word alone is not valid. -/
theorem witness_InvalidTransfersAreRefused_data :
    commandOf 0x0003 ∈ [Command.readChk, .readDiag, .writeChk, .writeFirst, .format] ∧
      diskValid smallMemory.params (target { smallMemory with regs := { smallMemory.regs with dataBufferLow := 0x101 } }) = true ∧
      ¬ BufferMapped smallMemory.params (dataAddress { smallMemory with regs := { smallMemory.regs with dataBufferLow := 0x101 } })
        (dataWords smallMemory.params) := by unfold BufferMapped; decide

/-- Clause 3: a header buffer whose last word alone is not valid. -/
theorem witness_InvalidTransfersAreRefused_header :
    commandOf 0x0001 ∈ [Command.readChk, .readDiag, .writeFirst, .format] ∧
      diskValid smallMemory.params (target { smallMemory with regs := { smallMemory.regs with headerAddressLow := 0x201 } }) = true ∧
      ¬ BufferMapped smallMemory.params (headerAddress { smallMemory with regs := { smallMemory.regs with headerAddressLow := 0x201 } })
        (headerWords smallMemory.params) := by unfold BufferMapped; decide

theorem witness_TwinCommandsAgree : stepBit 0x0019 = stepBit 0xFFFA ∧ dirBit 0x0019 = dirBit 0xFFFA := by decide

/-- A state for each of the five clauses. -/
theorem witness_SeekRunFollowsTheTable :
    (toy.seekState = .waitForStepSet ∧ stepBit toy.seekData = false) ∧
    ({ toy with seekData := 0x001E }.seekState = .waitForStepSet ∧ stepBit { toy with seekData := 0x001E }.seekData = true) ∧
    (armed.seekState = .waitForStepRelease ∧ stepBit armed.seekData = true) ∧
    ({ armed with seekData := 0x000E }.seekState = .waitForStepRelease ∧ stepBit { armed with seekData := 0x000E }.seekData = false) ∧
    { toy with seekState := .seekComplete }.seekState = .seekComplete := by decide

theorem witness_StepSetArmsThePulse :
    stepBit 0x0011 = true ∧ CommandAllowed (commandOf 0x0011) toy ∧ toy.seekState = .waitForStepSet :=
  ⟨by decide, full_toy, by decide⟩

/-- At both ends of the drive, and with a `Reset` word. -/
theorem witness_StepReleaseMovesOneCylinder :
    Inv armed ∧ stepBit 0x000E = false ∧ CommandAllowed (commandOf 0x000E) armed ∧ commandOf 0x0007 = .reset ∧
      armed.seekState = .waitForStepRelease ∧ Inv { armed with physicalCylinder := 201 } := by
  refine ⟨inv_armed, by decide, trivial, by decide, by decide, ?_⟩
  constructor <;> decide

/-- Words that release an armed pulse, one for each direction; words that release nothing, because the step bit is still set or because no
pulse is armed; and a `Reset` word. -/
theorem witness_DirectionBitDecidesTheMove :
    Inv armed ∧ Inv toy ∧ armed.seekState = .waitForStepRelease ∧ toy.seekState = .waitForStepSet ∧
      (CommandAllowed (commandOf 0x0006) armed ∧ dirBit 0x0006 = false ∧ stepBit 0x0006 = false) ∧
      (CommandAllowed (commandOf 0x000E) armed ∧ dirBit 0x000E = true ∧ stepBit 0x000E = false) ∧
      (CommandAllowed (commandOf 0x0016) armed ∧ dirBit 0x0016 = false ∧ stepBit 0x0016 = true) ∧
      (CommandAllowed (commandOf 0x001E) armed ∧ dirBit 0x001E = true ∧ stepBit 0x001E = true) ∧
      (CommandAllowed (commandOf 0x0006) toy ∧ CommandAllowed (commandOf 0x000E) toy) ∧
      (CommandAllowed (commandOf 0x0007) armed ∧ commandOf 0x0007 = .reset ∧ dirBit 0x0007 = false) :=
  ⟨inv_armed, inv_toy, by decide, by decide, ⟨trivial, by decide⟩, ⟨trivial, by decide⟩, ⟨trivial, by decide⟩, ⟨trivial, by decide⟩,
    ⟨trivial, trivial⟩, trivial, by decide⟩

/-- A word that releases nothing moves nothing (V-SEEK-12; P2, write 5). -/
theorem test_dir_without_release : (after (exec (.dirIn 0x0016) armed)).physicalCylinder = 5 ∧
    (after (exec (.dirAway 0x000E) toy)).physicalCylinder = 0 := by decide

/-- The drive has a cylinder, and each clause has a delta at its boundary. -/
theorem witness_SeekByClampsTheMove :
    1 ≤ armed.params.cylCount ∧ (armed.physicalCylinder : Int) + (-6) < 0 ∧
      (armed.params.cylCount : Int) - 1 < armed.physicalCylinder + 197 ∧
      (0 ≤ (armed.physicalCylinder : Int) + (-5) ∧ (armed.physicalCylinder : Int) + 196 ≤ armed.params.cylCount - 1) := by decide

/-- `toy` after one pulse away from cylinder 0. -/
def pulsed : State :=
  { toy with
    physicalCylinder := 1, status := { toy.status with trackZero := false, seekComplete := true }, seekData := 0x000E
    irqLine := true, irqTrace := [(2000, .raise)], log := [.unhandled 6, .unhandled 6, .unhandled 6] }

theorem pulsed_reached : writeCommands [0x001E, 0x001E, 0x000E] toy = .next pulsed := eq_of_answers (by decide +kernel)

/-- One pulse, its step bit held by a second word; none of the words is a `Reset`. -/
theorem witness_OneMoveAndOneInterruptPerPulse :
    Inv toy ∧ writeCommands [0x001E, 0x001E, 0x000E] toy = .next pulsed ∧
      (pulsesOf toy.seekState [0x001E, 0x001E, 0x000E]).directions = [true] ∧
      ∀ w ∈ ([0x001E, 0x001E, 0x000E] : List Word), commandOf w ≠ .reset :=
  ⟨inv_toy, pulsed_reached, by decide, by simp [commandOf, commandOfCode, cmdField]⟩

/-- The last data word shares no address with the header buffer, and address 0 lies in neither. -/
theorem witness_ReadCommandsCopyTheSectorToMemory :
    Inv toy ∧ FullTransferAllowed toy ∧ (3 < dataWords toy.params ∧ dataWords toy.params ≤ 3 + 2 ^ 32) ∧
      (1 < headerWords toy.params ∧ headerWords toy.params ≤ 1 + 2 ^ 32) ∧
      ¬ InBuffer (headerAddress toy) (headerWords toy.params) (dataAddress toy + 3) ∧
      ¬ InBuffer (headerAddress toy) (headerWords toy.params) 0 ∧ ¬ InBuffer (dataAddress toy) (dataWords toy.params) 0 :=
  ⟨inv_toy, full_toy, by decide, by decide, by unfold InBuffer; decide, by unfold InBuffer; decide, by unfold InBuffer; decide⟩

theorem witness_WriteChkKeepsTheHeader : Inv toy ∧ DataTransferAllowed toy ∧ (⟨0, 0, 1⟩ : SectorAddr) ≠ target toy :=
  ⟨inv_toy, data_toy, by decide⟩

theorem witness_WriteFirstAndFormatWriteTheHeader :
    Inv toy ∧ FullTransferAllowed toy ∧ (⟨1, 0, 0⟩ : SectorAddr) ≠ target toy := ⟨inv_toy, full_toy, by decide⟩

/-- The state after a `WriteFirst` of `toy`, and the same with the buffers at 0x8000 and 0x9000. -/
def written : State :=
  { busy with
    disk := [(0, ⟨[0x77, 0x77, 0x88, 0x88], [0x0B, 0x0A, 0x0D, 0x0C, 0x0F, 0x0E, 0x11, 0x10]⟩)], seekData := 0x0004 }
def readBack : State := { written with regs := { written.regs with dataBufferLow := 0x8000, headerAddressLow := 0x9000 } }

theorem witness_WriteThenReadRoundTrips :
    Inv toy ∧ exec (.writeFirst 0x0004) toy = .next written ∧ readBack.mem = written.mem ∧ readBack.disk = written.disk ∧
    readBack.params = written.params ∧ target readBack = target written ∧
    (∀ x, InBuffer (dataAddress readBack) (dataWords toy.params) x →
      ¬ InBuffer (headerAddress readBack) (headerWords toy.params) x ∧ ¬ InBuffer (dataAddress toy) (dataWords toy.params) x ∧
        ¬ InBuffer (headerAddress toy) (headerWords toy.params) x) ∧
    (∀ x, InBuffer (headerAddress readBack) (headerWords toy.params) x →
      ¬ InBuffer (dataAddress toy) (dataWords toy.params) x ∧ ¬ InBuffer (headerAddress toy) (headerWords toy.params) x) ∧
    exec (.readChk 0x0001) readBack = .next (after (exec (.readChk 0x0001) readBack)) := by
  have hd : ∀ i < dataWords toy.params,
      ¬ InBuffer (headerAddress readBack) (headerWords toy.params) (dataAddress readBack + BitVec.ofNat 32 i) ∧
      ¬ InBuffer (dataAddress toy) (dataWords toy.params) (dataAddress readBack + BitVec.ofNat 32 i) ∧
      ¬ InBuffer (headerAddress toy) (headerWords toy.params) (dataAddress readBack + BitVec.ofNat 32 i) := by
    unfold InBuffer; decide
  have hh : ∀ i < headerWords toy.params,
      ¬ InBuffer (dataAddress toy) (dataWords toy.params) (headerAddress readBack + BitVec.ofNat 32 i) ∧
      ¬ InBuffer (headerAddress toy) (headerWords toy.params) (headerAddress readBack + BitVec.ofNat 32 i) := by
    unfold InBuffer; decide
  refine ⟨inv_toy, eq_of_answers (by decide +kernel), rfl, rfl, rfl, rfl, ?_, ?_, eq_of_answers (by decide +kernel)⟩
  · rintro x ⟨i, hi, rfl⟩; exact hd i hi
  · rintro x ⟨i, hi, rfl⟩; exact hh i hi

theorem witness_PortsReturnWhatWasStored :
    Memory.wf toy.mem = true ∧ (0x101 : Addr) ≠ 0x100 ∧ Disk.wf toyParams toy.disk = true ∧ (⟨0, 0, 1⟩ : SectorAddr) ≠ ⟨0, 1, 0⟩ := by
  decide

theorem witness_ByteOrderRoundTrips : ([0x5A, 0xA5, 0x02, 0x01] : List Byte).length % 2 = 0 ∧
    1 < ([0x5A, 0xA5, 0x02, 0x01] : List Byte).length / 2 ∧ 1 < ([0xA55A, 0x0102] : List Word).length := by decide

theorem witness_EnterBusyArmsOneCompletion :
    busy.status.controllerStatus = .busy ∧ toy.status.controllerStatus = .done := by decide

theorem witness_HandlersCommute :
    ¬ (EventKind.busyDone ≠ .busyDone ∧ EventKind.indexEnd ≠ .busyDone) ∧
      exec (eventInstr .busyDone) busy = .next (after (exec .busyDone busy)) ∧
      exec (eventInstr .indexEnd) (after (exec .busyDone busy)) = .next (after (exec .indexEnd (after (exec .busyDone busy)))) :=
  ⟨by decide, rfl, rfl⟩

theorem witness_BusyIsIdempotent :
    commandWord (.readDiag 0x0002) = some 0x0002 ∧ (Instr.readDiag 0x0002).wf = true ∧ commandOf 0x0002 ≠ .reset ∧
      busy.status.controllerStatus = .busy ∧ exec (.readDiag 0x0002) busy = .next (after (exec (.readDiag 0x0002) busy)) :=
  ⟨by decide, by decide, by decide, by decide, rfl⟩

theorem witness_NothingCancelsAnEvent : exec .indexStart toy = .next (after (exec .indexStart toy)) := rfl

theorem witness_ResetWhileBusyLeavesAStaleCompletion :
    Inv busy ∧ busy.status.controllerStatus = .busy ∧ exec (.cmdReset 0x0007) busy = .next (after (exec (.cmdReset 0x0007) busy)) :=
  ⟨inv_busy, by decide, rfl⟩

/-- A completed pulse in an `Idle` word: both a clear and a raise. -/
theorem witness_InterruptHasTwoRaiseSitesAndOneClearSite :
    (Instr.idle 0x0000).wf = true ∧ armed.seekState ≠ .seekComplete ∧ exec (.idle 0x0000) armed = .next (after (exec (.idle 0x0000) armed)) :=
  ⟨by decide, by decide, rfl⟩

theorem witness_LineFollowsTheLastCall : exec .busyDone busy = .next (after (exec .busyDone busy)) := rfl

/-- An image with a listed sector and a memory with listed words. -/
theorem witness_InvariantHoldsAfterConstruction :
    toyParams.wf ∧ Disk.wf toyParams toy.disk = true ∧ Memory.wf toy.mem = true ∧ ∀ entry ∈ toy.disk, entry.2.fits toyParams = true := by
  decide

theorem witness_EveryStepKeepsTheInvariant : Inv busyDue ∧ step busyDue = .next (after (step busyDue)) := ⟨inv_busyDue, rfl⟩

/-- A machine just constructed whose host writes `Reset` twice, and the same after the first of them. -/
def resetTwice : State :=
  { State.construct toyParams toy.regs toy.disk toy.mem with input := [.access [0x0000, 0x0007], .access [0x0000, 0x0007]] }
def resetOnce : State :=
  { resetTwice with
    input := [.access [0x0000, 0x0007]]
    status := { resetStatus with controllerStatus := .busy }
    pending := [⟨1100, .indexEnd⟩, ⟨1000000, .busyDone⟩]
    seekData := 0x0007 }
def resetAgain : State :=
  { resetOnce with input := [], pending := [⟨1100, .indexEnd⟩, ⟨1000000, .busyDone⟩, ⟨1000000, .busyDone⟩] }

theorem witness_PendingCompletionsAreBoundedByResets :
    toyParams.wf ∧ Disk.wf toyParams toy.disk = true ∧ Memory.wf toy.mem = true ∧ (∀ entry ∈ toy.disk, entry.2.fits toyParams = true) ∧
    Host.Core.run core 2 { State.construct toyParams toy.regs toy.disk toy.mem with
      input := [.access [0x0000, 0x0007], .access [0x0000, 0x0007]] } = .next resetAgain :=
  ⟨by decide, by decide, by decide, by decide,
    (run_step (s := resetTwice) (t := resetOnce) (eq_of_answers (by decide +kernel)) 1).trans
      (run_step (s := resetOnce) (t := resetAgain) (eq_of_answers (by decide +kernel)) 0)⟩

/-- States whose one pending event is an index event on time. -/
theorem on_cycle_start {s : State} (k : Nat) (h : s.pending = [⟨k * indexCycle, .indexStart⟩]) : OnIndexCycle s := by
  intro e he
  rw [h, List.mem_singleton] at he
  subst he
  exact ⟨fun _ => ⟨k, rfl⟩, nofun⟩
theorem on_cycle_end {s : State} (k : Nat) (h : s.pending = [⟨k * indexCycle + Config.indexPulseNs, .indexEnd⟩]) : OnIndexCycle s := by
  intro e he
  rw [h, List.mem_singleton] at he
  subst he
  exact ⟨nofun, fun _ => ⟨k, rfl⟩⟩

/-- A due start of a pulse, a due end of one, and a `Reset` word inside a pulse. -/
def pulseDue : State := { toy with now := 20001100 }
def pulseEnds : State :=
  { toy with now := 1100, status := { toy.status with index := true }, pending := [⟨1100, .indexEnd⟩] }
def resetInPulse : State := { pulseEnds with now := 500, input := [.access [0x0000, 0x0007]] }

theorem inv_pulseDue : Inv pulseDue := by constructor <;> decide
theorem inv_pulseEnds : Inv pulseEnds := by constructor <;> decide
theorem inv_resetInPulse : Inv resetInPulse := by constructor <;> decide

theorem witness_EveryStepKeepsTheIndexCycle :
    (Inv pulseDue ∧ OnIndexCycle pulseDue ∧ step pulseDue = .next (after (step pulseDue)) ∧ nextInstr pulseDue = some .indexStart) ∧
    (Inv pulseEnds ∧ OnIndexCycle pulseEnds ∧ step pulseEnds = .next (after (step pulseEnds)) ∧ nextInstr pulseEnds = some .indexEnd) ∧
    (Inv resetInPulse ∧ OnIndexCycle resetInPulse ∧ step resetInPulse = .next (after (step resetInPulse)) ∧
      nextIsReset resetInPulse = true) :=
  ⟨⟨inv_pulseDue, on_cycle_start 1 rfl, rfl, by decide⟩, ⟨inv_pulseEnds, on_cycle_end 0 rfl, rfl, by decide⟩,
    ⟨inv_resetInPulse, on_cycle_end 0 rfl, rfl, by decide⟩⟩

/-- The bound met with equality, and a step that is a reset. -/
theorem witness_EveryStepKeepsTheCompletionBound :
    CompletionsWithin 0 busyDue ∧ step busyDue = .next (after (step busyDue)) ∧
      CompletionsWithin 0 resetOnce ∧ step resetOnce = .next resetAgain ∧ nextIsReset resetOnce = true :=
  ⟨by unfold CompletionsWithin; decide, rfl, by unfold CompletionsWithin; decide, eq_of_answers (by decide +kernel), by decide⟩

theorem witness_EveryElementHasItsWriters :
    (Instr.writeChk 0x0003).wf = true ∧ exec (.writeChk 0x0003) toy = .next (after (exec (.writeChk 0x0003) toy)) := ⟨by decide, rfl⟩

/-- A `ReadChk` word that also completes a pulse. -/
theorem witness_EveryFlagHasItsWriters :
    (Instr.stepRelease 0x0009).wf = true ∧ armed.seekState ≠ .seekComplete ∧ isReset (.stepRelease 0x0009) = false ∧
      exec (.stepRelease 0x0009) armed = .next (after (exec (.stepRelease 0x0009) armed)) :=
  ⟨by decide, by decide, by decide, rfl⟩

theorem witness_TransfersStayInTheirBuffers :
    Inv toy ∧ exec (.readChk 0x0001) toy = .next (after (exec (.readChk 0x0001) toy)) ∧
      ¬ InBuffer (dataAddress toy) (dataWords toy.params) 0x104 ∧ ¬ InBuffer (headerAddress toy) (headerWords toy.params) 0x104 ∧
      (⟨255, 7, 31⟩ : SectorAddr) ≠ target toy :=
  ⟨inv_toy, rfl, by unfold InBuffer; decide, by unfold InBuffer; decide, by decide⟩

end Sys2Proof.Tests
end

/-! # Scope: the address transforms, the generality of the parameters, and the step that runs an access -/

namespace Sys2Proof.Machine

/-! ## The address transforms (R99, R100, R102) -/

/-- R6(d): `unfrob` is an involution whatever the mask and the table, because it uses a proposed image only where that maps back. -/
@[simp] theorem unfrob_unfrob (p : Params) (x : Word) : unfrob p (unfrob p x) = x := by
  by_cases h : unfrobRaw p (unfrobRaw p x) = x <;> simp [unfrob, h]

/-- Where the proposed images are an involution, `unfrob` is that involution. -/
theorem unfrob_eq_of_involutive {p : Params} {f : Word → Word} (hraw : ∀ x, unfrobRaw p x = f x) (hf : Function.Involutive f)
    (x : Word) : unfrob p x = f x := by
  simp [unfrob, hraw, hf x]

@[simp] theorem invertHigh_invertHigh (x : Word) : invertHigh (invertHigh x) = x := BitVec.not_not

/-- Settles O10: each of the two transforms undoes itself. -/
theorem addressTransformsAreInvolutions : Obligations.AddressTransformsAreInvolutions :=
  fun p x => ⟨unfrob_unfrob p x, invertHigh_invertHigh x⟩

/-! ## Parameters for given transforms, validities and bus addresses (R5) -/

/-- Every bit vector of `n` bits. Irreducible, so that no unification spells out `2 ^ n` entries. -/
@[irreducible] def allBitVecs (n : Nat) : List (BitVec n) := (List.finRange (2 ^ n)).map BitVec.ofFin

@[simp] theorem mem_allBitVecs {n : Nat} (x : BitVec n) : x ∈ allBitVecs n := by
  rw [allBitVecs]
  exact List.mem_map.2 ⟨x.toFin, List.mem_finRange _, rfl⟩

/-- Every sector address. -/
def allSectorAddrs : List SectorAddr :=
  (allBitVecs 8 ×ˢ allBitVecs 3 ×ˢ allBitVecs 5).map (fun a => ⟨a.1, a.2.1, a.2.2⟩)

@[simp] theorem mem_allSectorAddrs (a : SectorAddr) : a ∈ allSectorAddrs :=
  List.mem_map.2 ⟨(a.cylinder, a.head, a.sector), by simp, rfl⟩

/-- Parameters that list the whole graph of `f` as the table of `unfrob`. -/
def paramsOfUnfrob (f : Word → Word) : Params :=
  { Params.default with unfrobTable := (allBitVecs 16).map (fun x => (x, f x)) }

theorem unfrobRaw_paramsOfUnfrob (f : Word → Word) (x : Word) : unfrobRaw (paramsOfUnfrob f) x = f x := by
  have h : (paramsOfUnfrob f).unfrobTable.lookup x = some (f x) := List.lookup_graph f (mem_allBitVecs x)
  simp only [unfrobRaw, h]

theorem zoneHolds_iff (z : SectorZone) (a : SectorAddr) :
    zoneHolds z a = true ↔
      (z.cylinderFrom ≤ a.cylinder.toNat ∧ a.cylinder.toNat ≤ z.cylinderTo) ∧
        (z.headFrom ≤ a.head.toNat ∧ a.head.toNat ≤ z.headTo) ∧ (z.sectorFrom ≤ a.sector.toNat ∧ a.sector.toNat ≤ z.sectorTo) := by
  simp [zoneHolds, and_assoc]

theorem diskValid_iff (p : Params) (a : SectorAddr) : diskValid p a = true ↔ ∃ z ∈ p.sectorZones, zoneHolds z a = true := by
  simp [diskValid]

theorem memValid_iff (p : Params) (a : Addr) :
    memValid p a = true ↔ ∃ r ∈ p.memRanges, r.first ≤ a.toNat ∧ a.toNat ≤ r.last := by
  simp [memValid]

/-- The box of one sector. -/
def sectorBox (a : SectorAddr) : SectorZone :=
  ⟨a.cylinder.toNat, a.cylinder.toNat, a.head.toNat, a.head.toNat, a.sector.toNat, a.sector.toNat⟩

theorem zoneHolds_sectorBox (b a : SectorAddr) : zoneHolds (sectorBox b) a = true ↔ b = a := by
  cases b
  cases a
  simp only [zoneHolds_iff, sectorBox, ← Nat.le_antisymm_iff, BitVec.toNat_inj, SectorAddr.mk.injEq]

/-- Parameters that list each valid sector as a box of its own. -/
def paramsOfDiskValid (valid : SectorAddr → Bool) : Params :=
  { Params.default with sectorZones := (allSectorAddrs.filter valid).map sectorBox }

theorem diskValid_paramsOfDiskValid (valid : SectorAddr → Bool) (a : SectorAddr) : diskValid (paramsOfDiskValid valid) a = valid a := by
  rw [Bool.eq_iff_iff, diskValid_iff]
  simp [paramsOfDiskValid, zoneHolds_sectorBox]

/-- The range of one word address. -/
def addrPoint (a : Addr) : AddrRange := ⟨a.toNat, a.toNat⟩

theorem addrPoint_holds (b a : Addr) : (addrPoint b).first ≤ a.toNat ∧ a.toNat ≤ (addrPoint b).last ↔ b = a := by
  simp only [addrPoint, ← Nat.le_antisymm_iff, BitVec.toNat_inj]

/-- Parameters that list each valid word address as a range of its own. -/
def paramsOfMemValid (valid : Addr → Bool) : Params :=
  { Params.default with memRanges := ((allBitVecs 32).filter valid).map addrPoint }

theorem memValid_paramsOfMemValid (valid : Addr → Bool) (a : Addr) : memValid (paramsOfMemValid valid) a = valid a := by
  rw [Bool.eq_iff_iff, memValid_iff]
  simp [paramsOfMemValid, addrPoint_holds]

/-- Parameters whose bus address of each selector is `address` of it. -/
def paramsOfPortMap (address : Nat → Nat) : Params :=
  { Params.default with
    portMap := ⟨address 0, address 1, address 2, address 3, address 4, address 5, address 6, address 7, address 8, address 9,
      address 10⟩ }

theorem busAddress_paramsOfPortMap (address : Nat → Nat) {selector : Nat} (h : selector < 11) :
    busAddress (paramsOfPortMap address) selector = some (address selector) := by
  interval_cases selector <;> rfl

/-- Settles O11: a transform is given by its graph, a validity by its points, and a port map by its eleven addresses. -/
theorem parametersAreFullyGeneral : Obligations.ParametersAreFullyGeneral :=
  ⟨fun f hf => ⟨paramsOfUnfrob f, unfrob_eq_of_involutive (unfrobRaw_paramsOfUnfrob f) hf⟩,
    fun valid => ⟨paramsOfDiskValid valid, diskValid_paramsOfDiskValid valid⟩,
    fun valid => ⟨paramsOfMemValid valid, memValid_paramsOfMemValid valid⟩,
    fun address => ⟨paramsOfPortMap address, fun _ => busAddress_paramsOfPortMap address⟩⟩

/-! ## The step that runs an access (R9, R208) -/

theorem fetchAccess_of_decode {words : List Word} {i : Instr} (hd : decode words = .ok i) (hk : eventKindOf i = none) :
    fetchAccess words = .ok i := by
  simp only [fetchAccess, hd, hk]

theorem step_of_fetchAccess {s : State} {words : List Word} {rest : List Input} {i : Instr} (hdue : takeDue s = none)
    (hin : s.input = .access words :: rest) (hi : fetchAccess words = .ok i) : step s = exec i { s with input := rest } := by
  simp only [step, hdue, hin, hi]

/-- Settles O4: nothing is delivered, so the front of the inputs happens, and its words are fetched as they decode. -/
theorem stepRunsTheDecodedAccess : Obligations.StepRunsTheDecodedAccess :=
  fun _ _ _ _ hpending hin hd _ hk => step_of_fetchAccess (takeDue_eq_none hpending) hin (fetchAccess_of_decode hd hk)

end Sys2Proof.Machine

/-! # State: what every step keeps, time, the pending events and the bound on the completions -/

namespace Sys2Proof

/-! ## What decodes is well formed (R91 to R93) -/

theorem decodeRegOp_wf {selector : Nat} {v : Word} {i : Instr} (h : decodeRegOp selector v = .ok i) : i.wf = true := by
  unfold decodeRegOp at h
  split at h <;> cases h <;> rfl

/-- The view shows the bit of the row it answers (R93). -/
theorem decodeModifier_wf {view : Nat} {w : Word} {i : Instr} (h : decodeModifier view w = .ok i) : i.wf = true := by
  unfold decodeModifier at h
  split at h <;> cases h
  · cases hb : stepBit w with
    | true => exact (matchesRow_stepSet w).trans hb
    | false => exact (matchesRow_stepRelease w).trans (by rw [hb, Bool.not_false])
  · cases hb : dirBit w with
    | true => exact (matchesRow_dirAway w).trans hb
    | false => exact (matchesRow_dirIn w).trans (by rw [hb, Bool.not_false])

/-- The code picks the row whose pattern it is (R92). -/
theorem decodeCommand_wf {view : Nat} {w : Word} {i : Instr} (h : decodeCommand view w = .ok i) : i.wf = true := by
  unfold decodeCommand at h
  split at h <;> cases h
  have hcode : (cmdField w).toNat < 8 := (cmdField w).isLt
  have hrow : matchesRow 0x0007 (BitVec.ofNat 16 (cmdField w).toNat) w = true := by
    rw [matchesRow_code w hcode, decide_eq_true rfl]
  rw [Machine.commandOf_of_mask hrow hcode]
  generalize (cmdField w).toNat = n at hrow hcode
  interval_cases n <;> exact hrow

theorem decodeEvent_wf {tag : Nat} {i : Instr} (h : decodeEvent tag = .ok i) : i.wf = true := by
  unfold decodeEvent at h
  split at h <;> cases h <;> rfl

theorem decodeEnvironment_wf {tag : Nat} {operands : List Word} {i : Instr} (h : decodeEnvironment tag operands = .ok i) :
    i.wf = true := by
  unfold decodeEnvironment at h
  split at h <;> cases h <;> rfl

theorem decode_wf {words : List Word} {i : Instr} (h : decode words = .ok i) : i.wf = true := by
  unfold decode at h
  split at h
  · cases h
  · split at h
    · cases h
    · split at h
      · exact decodeRegOp_wf h
      · exact decodeModifier_wf h
      · exact decodeCommand_wf h
      · exact decodeEvent_wf h
      · exact decodeEnvironment_wf h
      · cases h

end Sys2Proof

namespace Sys2Proof.Machine

/-! ## What an instruction leaves alone -/

/-- A well-formed instruction that carries a command word dispatches the command that word selects. -/
theorem exec_eq_commandWrite {i : Instr} {w : Word} (h : commandWord i = some w) :
    ∃ c, (i.wf = true → commandOf w = c) ∧ ∀ s, exec i s = commandWrite (dispatch c s) w := by
  cases i <;> simp only [commandWord, Option.some.injEq, reduceCtorEq] at h <;> subst h
  case idle => exact ⟨.idle, fun hw => commandOf_of_mask (n := 0) hw (by decide), fun _ => rfl⟩
  case readChk => exact ⟨.readChk, fun hw => commandOf_of_mask (n := 1) hw (by decide), fun _ => rfl⟩
  case readDiag => exact ⟨.readDiag, fun hw => commandOf_of_mask (n := 2) hw (by decide), fun _ => rfl⟩
  case writeChk => exact ⟨.writeChk, fun hw => commandOf_of_mask (n := 3) hw (by decide), fun _ => rfl⟩
  case writeFirst => exact ⟨.writeFirst, fun hw => commandOf_of_mask (n := 4) hw (by decide), fun _ => rfl⟩
  case format => exact ⟨.format, fun hw => commandOf_of_mask (n := 5) hw (by decide), fun _ => rfl⟩
  case seek => exact ⟨.seek, fun hw => commandOf_of_mask (n := 6) hw (by decide), fun _ => rfl⟩
  case cmdReset => exact ⟨.reset, fun hw => commandOf_of_mask (n := 7) hw (by decide), fun _ => rfl⟩
  all_goals exact ⟨commandOf _, fun _ => rfl, fun _ => rfl⟩

/-- No instruction writes the parameters, time, the inputs or the count of free choices. -/
theorem exec_frame {i : Instr} {s t : State} (h : exec i s = .next t) :
    t.params = s.params ∧ t.now = s.now ∧ t.input = s.input ∧ t.tieCount = s.tieCount := by
  cases hw : commandWord i with
  | some w =>
    obtain ⟨c, u, hd, rfl⟩ := exec_command_next hw h
    obtain ⟨hparams, -, -, hnow, hinput, -, hties⟩ := dispatch_frame hd
    simp [hparams, hnow, hinput, hties]
  | none =>
    rcases exec_other hw h with ⟨_, _, rfl, -⟩ | ⟨-, rfl⟩ | ⟨-, rfl⟩ | ⟨-, rfl⟩ | ⟨-, rfl⟩ | ⟨-, rfl⟩ | ⟨_, -, rfl⟩ <;> simp

theorem exec_params {i : Instr} {s t : State} (h : exec i s = .next t) : t.params = s.params := (exec_frame h).1

theorem exec_now {i : Instr} {s t : State} (h : exec i s = .next t) : t.now = s.now := (exec_frame h).2.1

/-! ## What an instruction does to the pending events -/

/-- What the scheduler's rules R47 and R200 to R205 speak of: the pending events, the status field and `index`. -/
structure Timing where
  pending : List Event
  controllerStatus : ControllerStatus
  index : Bool

/-- The timing part of a state. -/
def timing (s : State) : Timing := ⟨s.pending, s.status.controllerStatus, s.status.index⟩

/-- The timing part with one completion armed and the controller Busy (R200). -/
def armedTiming (s : State) (index : Bool) : Timing :=
  ⟨insertEvent ⟨s.now + Config.busyNs, .busyDone⟩ s.pending, .busy, index⟩

theorem timing_enterBusy (s : State) :
    timing (enterBusy s) = timing s ∨
      s.status.controllerStatus = .done ∧ timing (enterBusy s) = armedTiming s s.status.index := by
  cases h : s.status.controllerStatus with
  | busy => exact .inl (by rw [enterBusy_of_busy s h])
  | done => exact .inr ⟨rfl, by rw [enterBusy_of_done s h]; rfl⟩

@[simp] theorem timing_seekRun_retain (w : Word) (s : State) : timing (seekRun (retain w s)) = timing s := by
  simp [timing]

/-- What a dispatched command does to the timing part: nothing, it arms a completion, or it resets and arms one. -/
theorem dispatch_timing {c : Command} {s t : State} (h : dispatch c s = .next t) :
    timing t = timing s ∨ (s.status.controllerStatus = .done ∧ timing t = armedTiming s s.status.index) ∨
      (c = .reset ∧ timing t = armedTiming s false) := by
  rcases dispatch_cases h with ⟨-, rfl⟩ | ⟨-, -, rfl⟩ | ⟨-, -, rfl⟩ | ⟨-, -, rfl⟩ | ⟨-, rfl⟩ | ⟨hc, rfl⟩
  · exact .inl rfl
  · exact (timing_enterBusy { s with mem := readTransferMemory s }).imp_right .inl
  · exact (timing_enterBusy { s with disk := _ }).imp_right .inl
  · exact (timing_enterBusy { s with disk := _ }).imp_right .inl
  · exact .inl rfl
  · exact .inr (.inr ⟨hc, rfl⟩)

/-- What an instruction that handles no event does to the timing part: nothing, it arms a completion, it resets and arms one, or it
resets only. -/
theorem exec_timing {i : Instr} {s t : State} (hk : eventKindOf i = none) (h : exec i s = .next t) :
    timing t = timing s ∨ (s.status.controllerStatus = .done ∧ timing t = armedTiming s s.status.index) ∨
      ((i.wf = true → isReset i = true) ∧ timing t = armedTiming s false) ∨
      (isReset i = true ∧ timing t = ⟨s.pending, .done, false⟩) := by
  cases hw : commandWord i with
  | some w =>
    obtain ⟨c, hc, hexec⟩ := exec_eq_commandWrite hw
    obtain ⟨u, hd, rfl⟩ := commandWrite_next ((hexec s).symm.trans h)
    rw [timing_seekRun_retain]
    rcases dispatch_timing hd with hu | hu | ⟨rfl, hu⟩
    · exact .inl hu
    · exact .inr (.inl hu)
    · exact .inr (.inr (.inl ⟨fun hwf => by simp [isReset, hw, hc hwf], hu⟩))
  | none =>
    rcases exec_other hw h with ⟨_, _, rfl, -⟩ | ⟨-, rfl⟩ | ⟨rfl, -⟩ | ⟨rfl, -⟩ | ⟨rfl, -⟩ | ⟨rfl, rfl⟩ | ⟨_, -, rfl⟩
    · exact .inl rfl
    · exact .inl rfl
    · cases hk
    · cases hk
    · cases hk
    · exact .inr (.inr (.inr ⟨rfl, rfl⟩))
    · exact .inl rfl

/-- The timing part after the handler of an event (R203 to R205). -/
def handledTiming (s : State) : EventKind → Timing
  | .busyDone => ⟨s.pending, .done, s.status.index⟩
  | .indexStart => ⟨insertEvent ⟨s.now + Config.indexPulseNs, .indexEnd⟩ s.pending, s.status.controllerStatus, true⟩
  | .indexEnd => ⟨insertEvent ⟨s.now + Config.rotationNs, .indexStart⟩ s.pending, s.status.controllerStatus, false⟩

theorem exec_eventInstr_timing {k : EventKind} {s t : State} (h : exec (eventInstr k) s = .next t) :
    timing t = handledTiming s k := by
  cases k <;> cases h <;> rfl

theorem eq_eventInstr {i : Instr} {k : EventKind} (h : eventKindOf i = some k) : i = eventInstr k := by
  cases i <;> cases h <;> rfl

theorem pending_perm_of_timing {s t : State} {e : Event} {c : ControllerStatus} {x : Bool}
    (h : timing t = ⟨insertEvent e s.pending, c, x⟩) : t.pending.Perm (e :: s.pending) :=
  (List.Perm.of_eq (congrArg Timing.pending h)).trans (insertEvent_perm e s.pending)

/-- Settles O37: accesses arm a completion or add nothing, and the handlers add the next index event or nothing. -/
theorem nothingCancelsAnEvent : Obligations.NothingCancelsAnEvent := by
  intro i s t h
  cases hk : eventKindOf i with
  | none =>
    rcases exec_timing hk h with ht | ⟨-, ht⟩ | ⟨-, ht⟩ | ⟨-, ht⟩
    · exact .inl (congrArg Timing.pending ht)
    · exact .inr ⟨_, pending_perm_of_timing ht, .inl rfl⟩
    · exact .inr ⟨_, pending_perm_of_timing ht, .inl rfl⟩
    · exact .inl (congrArg Timing.pending ht)
  | some k =>
    rw [eq_eventInstr hk] at h
    have ht := exec_eventInstr_timing h
    cases k with
    | busyDone => exact .inl (congrArg Timing.pending ht)
    | indexStart => exact .inr ⟨_, pending_perm_of_timing ht, .inr (.inl rfl)⟩
    | indexEnd => exact .inr ⟨_, pending_perm_of_timing ht, .inr (.inr rfl)⟩

/-! ## Counting pending events -/

@[simp] theorem isIndexEvent_iff (e : Event) : isIndexEvent e = true ↔ e.kind ≠ .busyDone := by
  cases h : e.kind <;> simp [isIndexEvent, h]

@[simp] theorem isCompletion_iff (e : Event) : isCompletion e = true ↔ e.kind = .busyDone := by
  cases h : e.kind <;> simp [isCompletion, isIndexEvent, h]

/-- Taking an event out of the list takes it out of the count. -/
theorem length_filter_of_perm_cons (p : Event → Bool) {e : Event} {others l : List Event} (h : (e :: others).Perm l) :
    (l.filter p).length = (others.filter p).length + if p e then 1 else 0 := by
  rw [← (h.filter p).length_eq, List.filter_cons]
  split <;> simp

theorem mem_of_perm_cons {e f : Event} {others l : List Event} (h : (e :: others).Perm l) (hf : f ∈ l) (hne : f.kind ≠ e.kind) :
    f ∈ others := by
  rcases List.mem_cons.1 (h.mem_iff.2 hf) with rfl | hf
  · exact absurd rfl hne
  · exact hf

/-! ## The bound on the completions (R47) -/

/-- The completions pending are at most `r`, plus one while Busy. -/
def Timing.Within (r : Nat) (x : Timing) : Prop :=
  (x.pending.filter isCompletion).length ≤ r + if x.controllerStatus = .busy then 1 else 0

/-- The bound reads the timing part only. -/
theorem completionsWithin_iff (r : Nat) (s : State) : CompletionsWithin r s ↔ (timing s).Within r := Iff.rfl

namespace Timing
variable {r : Nat} {l l' : List Event} {c : ControllerStatus} {x x' : Bool}

theorem within_busy : Within r ⟨l, .busy, x⟩ ↔ (l.filter isCompletion).length ≤ r + 1 := by simp [Within]

theorem within_done : Within r ⟨l, .done, x⟩ ↔ (l.filter isCompletion).length ≤ r := by simp [Within]

theorem within_armed {s : State} : Within r (armedTiming s x) ↔ completionsPending s ≤ r := by
  simp [armedTiming, within_busy, length_filter_insertEvent, completionsPending]

theorem Within.of_length_eq (h : Within r ⟨l, c, x⟩) (hl : (l'.filter isCompletion).length = (l.filter isCompletion).length) :
    Within r ⟨l', c, x'⟩ := by
  unfold Within
  rw [hl]
  exact h

theorem Within.mono {r' : Nat} {y : Timing} (h : Within r y) (hr : r ≤ r') : Within r' y :=
  Nat.le_trans h (Nat.add_le_add_right hr _)

/-- Whatever the status field, the bound exceeds the resets by at most one. -/
theorem Within.length_le {y : Timing} (h : Within r y) : (y.pending.filter isCompletion).length ≤ r + 1 := by
  unfold Within at h
  split at h <;> omega

end Timing

@[simp] theorem timing_advanceTime (a : Nat) (rest : List Input) (s : State) : timing (advanceTime a rest s) = timing s := by
  unfold advanceTime
  split
  · rfl
  · split
    · rfl
    · split <;> rfl

/-- An access: entering Busy allows for the completion it arms; a reset allows for the one it arms, or for the old one when it ends Busy. -/
theorem exec_keeps_within {i : Instr} {s t : State} {r : Nat} (hs : (timing s).Within r) (hk : eventKindOf i = none)
    (hwf : i.wf = true) (h : exec i s = .next t) : (timing t).Within (r + if isReset i then 1 else 0) := by
  rcases exec_timing hk h with ht | ⟨hdone, ht⟩ | ⟨hreset, ht⟩ | ⟨hreset, ht⟩ <;> rw [ht]
  · exact hs.mono (Nat.le_add_right _ _)
  · have hle : completionsPending s ≤ r := by
      rw [timing, hdone] at hs
      exact Timing.within_done.1 hs
    exact Timing.within_armed.2 (Nat.le_add_right_of_le hle)
  · rw [hreset hwf, Timing.within_armed]
    exact hs.length_le
  · rw [hreset, Timing.within_done]
    exact hs.length_le

/-- A delivery: a completion leaves the count together with Busy, and index events are not counted. -/
theorem deliver_keeps_within {s u t : State} {k : EventKind} {r : Nat} (hs : (timing s).Within r) (hk : takeDue s = some (k, u))
    (h : exec (eventInstr k) u = .next t) : (timing t).Within r := by
  rw [exec_eventInstr_timing h]
  obtain ⟨e, first, rest, others, n, -, -, -, hkind, -, hperm, rfl⟩ := takeDue_eq_some hk
  have hcount := length_filter_of_perm_cons isCompletion hperm
  cases k with
  | busyDone =>
    have hle := hs.length_le
    refine Timing.within_done.2 (Nat.le_of_succ_le_succ ?_)
    simpa [timing, hcount, hkind] using hle
  | indexStart => exact hs.of_length_eq (by simp [length_filter_insertEvent, hcount, hkind])
  | indexEnd => exact hs.of_length_eq (by simp [length_filter_insertEvent, hcount, hkind])

theorem nextInstr_of_access {s : State} {words : List Word} {rest : List Input} {i : Instr} (hdue : takeDue s = none)
    (hin : s.input = .access words :: rest) (hi : fetchAccess words = .ok i) : nextInstr s = some i := by
  simp [nextInstr, hdue, hin, hi, Except.toOption]

/-- Settles O52: deliveries and accesses keep the bound by the two lemmas above, and no other step touches the timing part. -/
theorem everyStepKeepsTheCompletionBound : Obligations.EveryStepKeepsTheCompletionBound := by
  intro s t r hs h
  rw [completionsWithin_iff] at hs ⊢
  have hmore := hs.mono (Nat.le_add_right r (if nextIsReset s then 1 else 0))
  rcases step_cases h with ⟨k, u, hk, hx⟩ | ⟨hdue, words, rest, i, hin, hi, hx⟩ | ⟨-, a, rest, -, rfl⟩ | ⟨-, a, w, rest, -, rfl⟩ |
    ⟨-, -, e, rest, -, rfl⟩
  · exact deliver_keeps_within hmore hk hx
  · obtain ⟨hdecode, hk⟩ := fetchAccess_ok hi
    have hreset : nextIsReset s = isReset i := by rw [nextIsReset, nextInstr_of_access hdue hin hi]
    rw [hreset]
    exact exec_keeps_within (s := { s with input := rest }) hs hk (decode_wf hdecode) hx
  · rwa [timing_advanceTime]
  · exact hmore
  · exact hmore

/-- The bound along a run: the resets of its steps are added up. -/
theorem run_keeps_completionsWithin {k : Nat} {s t : State} {r : Nat} (hs : CompletionsWithin r s)
    (h : Host.Core.run core k s = .next t) : CompletionsWithin (r + resetsDuring k s) t := by
  induction k generalizing s r with
  | zero =>
    cases h
    exact hs
  | succ k ih =>
    obtain ⟨u, hu, hrun⟩ := run_first h
    have hbound := ih (everyStepKeepsTheCompletionBound s u r hs hu) hrun
    simpa [resetsDuring, hu, Nat.add_assoc] using hbound

/-- Settles O46: the run starts with no completion pending. -/
theorem pendingCompletionsAreBoundedByResets : Obligations.PendingCompletionsAreBoundedByResets := by
  intro p r image m inputs k t _ _ _ _ h
  have hstart : CompletionsWithin 0 { State.construct p r image m with input := inputs } := Nat.zero_le _
  simpa [CompletionsWithin] using run_keeps_completionsWithin hstart h

/-! ## The queue of pending events -/

/-- The pending list is in its canonical order and no event of it is late (log 13; R206, R207). -/
structure QueueOk (now : Nat) (l : List Event) : Prop where
  sorted : l.Pairwise (fun e f => e.before f = true)
  notLate : ∀ e ∈ l, now ≤ e.due

theorem QueueOk.insert {now : Nat} {l : List Event} (h : QueueOk now l) (d : Nat) (k : EventKind) :
    QueueOk now (insertEvent ⟨now + d, k⟩ l) where
  sorted := insertEvent_sorted _ h.sorted
  notLate e he := by
    rcases mem_insertEvent.1 he with rfl | he
    · exact Nat.le_add_right now d
    · exact h.notLate e he

theorem QueueOk.sublist {now : Nat} {l l' : List Event} (h : QueueOk now l) (hl : l'.Sublist l) : QueueOk now l' :=
  ⟨h.sorted.sublist hl, fun e he => h.notLate e (hl.subset he)⟩

theorem QueueOk.first_due_le {now : Nat} {first : Event} {rest : List Event} (h : QueueOk now (first :: rest)) :
    ∀ e ∈ first :: rest, first.due ≤ e.due := by
  intro e he
  rcases List.mem_cons.1 he with rfl | he
  · exact Nat.le_refl _
  · exact Event.due_le_of_before ((List.pairwise_cons.1 h.sorted).1 e he)

/-! ## Time (R39, R207) -/

/-- The input `advance a` moves time forward, past no pending event, and writes nothing else but the inputs. -/
theorem advanceTime_cases {s : State} (h : QueueOk s.now s.pending) (a : Nat) (rest : List Input) :
    ∃ now' input', advanceTime a rest s = { s with now := now', input := input' } ∧ s.now ≤ now' ∧
      ∀ e ∈ s.pending, now' ≤ e.due := by
  unfold advanceTime
  split
  · exact ⟨s.now, rest, rfl, Nat.le_refl _, h.notLate⟩
  · rename_i ha
    split
    · rename_i hp
      exact ⟨a, rest, rfl, by omega, by simp [hp]⟩
    · rename_i first others hp
      rw [hp] at h
      rw [hp]
      have hfirst := h.first_due_le
      split
      · exact ⟨first.due, s.input, rfl, h.notLate first (List.mem_cons_self ..), hfirst⟩
      · exact ⟨a, rest, rfl, by omega, fun e he => by have := hfirst e he; omega⟩

/-- Everything a step can do from a state whose queue is in order: a delivery, an access, or, running no instruction, a store of another
agent or the passing of time up to the next event. -/
theorem step_cases_of_queueOk {s t : State} (hq : QueueOk s.now s.pending) (h : step s = .next t) :
    (∃ k u, takeDue s = some (k, u) ∧ exec (eventInstr k) u = .next t) ∨
    (∃ rest i, eventKindOf i = none ∧ exec i { s with input := rest } = .next t) ∨
    (nextInstr s = none ∧ ∃ now' input', t = { s with now := now', input := input' } ∧ s.now ≤ now' ∧
      ∀ e ∈ s.pending, now' ≤ e.due) ∨
    (nextInstr s = none ∧ ∃ a w rest, t = externalStore a w rest s) := by
  rcases step_cases h with hx | ⟨hdue, words, rest, i, hin, hi, hx⟩ | ⟨hdue, a, rest, hin, rfl⟩ | ⟨hdue, a, w, rest, hin, rfl⟩ |
    ⟨hdue, hin, first, rest, hp, rfl⟩
  · exact .inl hx
  · exact .inr (.inl ⟨rest, i, (fetchAccess_ok hi).2, hx⟩)
  · exact .inr (.inr (.inl ⟨by simp [nextInstr, hdue, hin], advanceTime_cases hq a rest⟩))
  · exact .inr (.inr (.inr ⟨by simp [nextInstr, hdue, hin], a, w, rest, rfl⟩))
  · rw [hp] at hq
    exact .inr (.inr (.inl ⟨by simp [nextInstr, hdue, hin], first.due, s.input, rfl, hq.notLate first (List.mem_cons_self ..),
      hp ▸ hq.first_due_le⟩))

theorem Inv.queueOk {s : State} (h : Inv s) : QueueOk s.now s.pending := ⟨h.sorted, h.notLate⟩

theorem takeDue_now {s u : State} {k : EventKind} (h : takeDue s = some (k, u)) : u.now = s.now := by
  obtain ⟨_, _, _, _, _, -, -, -, -, -, -, rfl⟩ := takeDue_eq_some h
  rfl

/-- Settles O8: instructions do not write time, and time passes only up to the next event. -/
theorem timeMovesOnlyForwardAndOnlyByAdvance : Obligations.TimeMovesOnlyForwardAndOnlyByAdvance := by
  intro s t hs h
  rcases step_cases_of_queueOk hs.queueOk h with ⟨k, u, hk, hx⟩ | ⟨rest, i, -, hx⟩ | ⟨hnone, now', input', rfl, hle, -⟩ |
    ⟨-, a, w, rest, rfl⟩
  · have hnow := (exec_now hx).trans (takeDue_now hk)
    exact ⟨hnow.ge, fun _ => hnow⟩
  · have hnow := exec_now hx
    exact ⟨hnow.ge, fun _ => hnow⟩
  · exact ⟨hle, fun hrun => absurd hnone hrun⟩
  · exact ⟨Nat.le_refl _, fun _ => rfl⟩

/-! ## The three parts of the invariant -/

/-- R45, R48, R49: the head, the flags of the drive and the seek machine. -/
structure DriveOk (p : Params) (cylinder : Nat) (trackZero driveFault unitReady : Bool) (st : SeekState) : Prop where
  position : cylinder < p.cylCount
  trackZero : trackZero = decide (cylinder = 0)
  driveFault : driveFault = false
  unitReady : unitReady = Config.unitReadyReset
  seekState : st ≠ .seekComplete

/-- The drive's part of the invariant. -/
def DriveInv (s : State) : Prop :=
  DriveOk s.params s.physicalCylinder s.status.trackZero s.status.driveFault s.status.unitReady s.seekState

/-- R63 and the canonical forms (log 6): the memory and the disk. -/
structure StoresOk (p : Params) (m : Memory) (k : Disk) : Prop where
  memory : m.wf = true
  disk : k.wf p = true
  sectors : ∀ entry ∈ k, entry.2.fits p = true

/-- The stores' part of the invariant. -/
def StoresInv (s : State) : Prop := StoresOk s.params s.mem s.disk

/-- R47: the events pending at time `now` and the two registers that promise one. -/
structure ScheduleOk (now : Nat) (x : Timing) : Prop where
  oneIndexEvent : (x.pending.filter isIndexEvent).length = 1
  indexEnds : x.index = true → ∃ e ∈ x.pending, e.kind = .indexEnd
  busyEnds : x.controllerStatus = .busy → ∃ e ∈ x.pending, e.kind = .busyDone
  queue : QueueOk now x.pending

/-- The invariant in parts: apart from the parameters no two of them read the same field, so each operation is checked against one. -/
theorem inv_iff (s : State) : Inv s ↔ s.params.wf ∧ DriveInv s ∧ StoresInv s ∧ ScheduleOk s.now (timing s) := by
  constructor
  · intro h
    exact ⟨h.params, ⟨h.position, h.trackZero, h.driveFault, h.unitReady, h.seekState⟩, ⟨h.memory, h.disk, h.sectors⟩,
      ⟨h.oneIndexEvent, h.indexEnds, h.busyEnds, h.queueOk⟩⟩
  · rintro ⟨hp, hd, hm, hx⟩
    exact { params := hp, position := hd.position, trackZero := hd.trackZero, driveFault := hd.driveFault, unitReady := hd.unitReady,
            seekState := hd.seekState, oneIndexEvent := hx.oneIndexEvent, indexEnds := hx.indexEnds, busyEnds := hx.busyEnds,
            sorted := hx.queue.sorted, notLate := hx.queue.notLate, memory := hm.memory, disk := hm.disk, sectors := hm.sectors }

/-! ## The drive (R45, R48, R49) -/

section Drive
variable {s t : State}

/-- A homed head with the flags of a reset (R149). -/
theorem driveOk_home {p : Params} (hp : p.wf) {st : SeekState} (h : st ≠ .seekComplete) :
    DriveOk p 0 true false Config.unitReadyReset st :=
  ⟨hp.1, rfl, rfl, rfl, h⟩

theorem enterBusy_keeps_driveInv (h : DriveInv s) : DriveInv (enterBusy s) := by
  simpa [DriveInv] using h

theorem dispatch_keeps_driveInv {c : Command} (hp : s.params.wf) (h : DriveInv s) (hd : dispatch c s = .next t) : DriveInv t := by
  rcases dispatch_cases hd with ⟨-, rfl⟩ | ⟨-, -, rfl⟩ | ⟨-, -, rfl⟩ | ⟨-, -, rfl⟩ | ⟨-, rfl⟩ | ⟨-, rfl⟩
  · exact h
  · exact enterBusy_keeps_driveInv h
  · exact enterBusy_keeps_driveInv h
  · exact enterBusy_keeps_driveInv h
  · exact h
  · exact enterBusy_keeps_driveInv (driveOk_home hp h.seekState)

/-- The clamp keeps the head on the drive, and `trackZero` is written with it (R166). -/
theorem seekTo_keeps_driveInv (hp : s.params.wf) (h : DriveInv s) (c : Int) : DriveInv (seekTo c s) :=
  ⟨clampCylinder_lt hp.1 c, rfl, h.driveFault, h.unitReady, h.seekState⟩

theorem singleSeek_keeps_driveInv (hp : s.params.wf) (h : DriveInv s) : DriveInv (singleSeek s) := by
  unfold singleSeek
  split <;> exact seekTo_keeps_driveInv hp h _

theorem afterAction_keeps_driveInv (hp : s.params.wf) (h : DriveInv s) : DriveInv (afterAction s) := by
  have hmove := singleSeek_keeps_driveInv hp h
  exact ⟨singleSeek_params s ▸ hmove.position, hmove.trackZero, h.driveFault, h.unitReady, nofun⟩

theorem seekRun_keeps_driveInv (hp : s.params.wf) (h : DriveInv s) : DriveInv (seekRun s) := by
  rcases seekRun_cases s with ⟨hs, -⟩ | hs | ⟨hs, -⟩ | ⟨hs, -⟩
  · rwa [hs]
  · rw [hs]
    exact ⟨h.position, h.trackZero, h.driveFault, h.unitReady, nofun⟩
  · exact hs ▸ afterAction_keeps_driveInv hp h
  · exact absurd hs h.seekState

theorem exec_keeps_driveInv {i : Instr} (hx : exec i s = .next t) (hp : s.params.wf) (h : DriveInv s) : DriveInv t := by
  cases hw : commandWord i with
  | some w =>
    obtain ⟨c, u, hd, rfl⟩ := exec_command_next hw hx
    obtain ⟨hparams, -⟩ := dispatch_frame hd
    have hu := dispatch_keeps_driveInv hp h hd
    exact seekRun_keeps_driveInv (s := retain w u) (hparams ▸ hp) hu
  | none =>
    rcases exec_other hw hx with ⟨_, _, rfl, -⟩ | ⟨-, rfl⟩ | ⟨-, rfl⟩ | ⟨-, rfl⟩ | ⟨-, rfl⟩ | ⟨-, rfl⟩ | ⟨d, -, rfl⟩
    · exact h
    · exact h
    · exact h
    · exact h
    · exact h
    · exact driveOk_home hp nofun
    · exact seekTo_keeps_driveInv hp h _

end Drive

/-! ## The stores (R63) -/

section Stores
variable {s t : State}

theorem readTransferMemory_wf (h : s.mem.wf = true) : (readTransferMemory s).wf = true :=
  Memory.storeWords_wf (Memory.storeWords_wf h _ _) _ _

/-- A transfer to disk stores one sector, which has the lengths of the geometry (R182). -/
theorem storesOk_writeTransfer (hp : s.params.wf) (h : StoresInv s) (writeHeader : Bool) :
    StoresOk s.params s.mem (s.disk.set s.params (target s) (writeTransferSector writeHeader s)) where
  memory := h.memory
  disk := Disk.set_wf h.disk _ _
  sectors entry he := by
    rcases mem_sparseSet _ he with he | rfl
    · exact h.sectors entry he
    · exact writeTransferSector_fits hp h.sectors writeHeader

theorem enterBusy_keeps_storesInv (h : StoresInv s) : StoresInv (enterBusy s) := by
  simpa [StoresInv] using h

theorem dispatch_keeps_storesInv {c : Command} (hp : s.params.wf) (h : StoresInv s) (hd : dispatch c s = .next t) : StoresInv t := by
  rcases dispatch_cases hd with ⟨-, rfl⟩ | ⟨-, -, rfl⟩ | ⟨-, -, rfl⟩ | ⟨-, -, rfl⟩ | ⟨-, rfl⟩ | ⟨-, rfl⟩
  · exact h
  · exact enterBusy_keeps_storesInv ⟨readTransferMemory_wf h.memory, h.disk, h.sectors⟩
  · exact enterBusy_keeps_storesInv (storesOk_writeTransfer hp h false)
  · exact enterBusy_keeps_storesInv (storesOk_writeTransfer hp h true)
  · exact h
  · exact enterBusy_keeps_storesInv h

theorem exec_keeps_storesInv {i : Instr} (hx : exec i s = .next t) (hp : s.params.wf) (h : StoresInv s) : StoresInv t := by
  cases hw : commandWord i with
  | some w =>
    obtain ⟨c, u, hd, rfl⟩ := exec_command_next hw hx
    simpa [StoresInv] using dispatch_keeps_storesInv hp h hd
  | none =>
    rcases exec_other hw hx with ⟨_, _, rfl, -⟩ | ⟨-, rfl⟩ | ⟨-, rfl⟩ | ⟨-, rfl⟩ | ⟨-, rfl⟩ | ⟨-, rfl⟩ | ⟨_, -, rfl⟩ <;> exact h

end Stores

/-! ## The schedule (R47) -/

section Schedule
variable {now : Nat} {l others : List Event} {e : Event} {c : ControllerStatus} {x : Bool}

/-- A completion armed, with Busy: the index event stays the only one. -/
theorem ScheduleOk.arm (h : ScheduleOk now ⟨l, c, x⟩) (d : Nat) {x' : Bool} (hx : x' = true → x = true) :
    ScheduleOk now ⟨insertEvent ⟨now + d, .busyDone⟩ l, .busy, x'⟩ where
  oneIndexEvent := by simpa [length_filter_insertEvent] using h.oneIndexEvent
  indexEnds hx' := by
    obtain ⟨f, hf, hkind⟩ := h.indexEnds (hx hx')
    exact ⟨f, mem_insertEvent.2 (.inr hf), hkind⟩
  busyEnds _ := ⟨_, mem_insertEvent.2 (.inl rfl), rfl⟩
  queue := h.queue.insert d _

/-- A completion delivered, with Done: other completions may stay, and the index event does. -/
theorem ScheduleOk.complete (h : ScheduleOk now ⟨l, c, x⟩) (hperm : (e :: others).Perm l) (hsub : others.Sublist l)
    (he : e.kind = .busyDone) : ScheduleOk now ⟨others, .done, x⟩ where
  oneIndexEvent := by simpa [length_filter_of_perm_cons _ hperm, he] using h.oneIndexEvent
  indexEnds hx := by
    obtain ⟨f, hf, hkind⟩ := h.indexEnds hx
    exact ⟨f, mem_of_perm_cons hperm hf (by simp [hkind, he]), hkind⟩
  busyEnds := nofun
  queue := h.queue.sublist hsub

/-- An index event delivered and the next one scheduled: again the only one. -/
theorem ScheduleOk.nextIndexEvent (h : ScheduleOk now ⟨l, c, x⟩) (hperm : (e :: others).Perm l) (hsub : others.Sublist l)
    (he : e.kind ≠ .busyDone) (d : Nat) {k : EventKind} (hk : k ≠ .busyDone) {x' : Bool} (hx : x' = true → k = .indexEnd) :
    ScheduleOk now ⟨insertEvent ⟨now + d, k⟩ others, c, x'⟩ where
  oneIndexEvent := by
    simpa [length_filter_insertEvent, length_filter_of_perm_cons _ hperm, he, hk] using h.oneIndexEvent
  indexEnds hx' := ⟨_, mem_insertEvent.2 (.inl rfl), hx hx'⟩
  busyEnds hc := by
    obtain ⟨f, hf, hkind⟩ := h.busyEnds hc
    exact ⟨f, mem_insertEvent.2 (.inr (mem_of_perm_cons hperm hf (by simpa [hkind] using he.symm))), hkind⟩
  queue := (h.queue.sublist hsub).insert d k

end Schedule

/-- An access: at most one completion is armed, and no promised event goes. -/
theorem exec_keeps_scheduleOk {i : Instr} {s t : State} (h : ScheduleOk s.now (timing s)) (hk : eventKindOf i = none)
    (hx : exec i s = .next t) : ScheduleOk t.now (timing t) := by
  rw [exec_now hx]
  rcases exec_timing hk hx with ht | ⟨-, ht⟩ | ⟨-, ht⟩ | ⟨-, ht⟩ <;> rw [ht]
  · exact h
  · exact h.arm _ id
  · exact h.arm _ nofun
  · exact ⟨h.oneIndexEvent, nofun, nofun, h.queue⟩

/-- A delivery with its handler: between the two the schedule has no index event, or Busy no completion. -/
theorem deliver_keeps_scheduleOk {s u t : State} {k : EventKind} (h : ScheduleOk s.now (timing s)) (hk : takeDue s = some (k, u))
    (hx : exec (eventInstr k) u = .next t) : ScheduleOk t.now (timing t) := by
  rw [exec_now hx, takeDue_now hk, exec_eventInstr_timing hx]
  obtain ⟨e, first, rest, others, n, -, -, -, hkind, hsub, hperm, rfl⟩ := takeDue_eq_some hk
  cases k with
  | busyDone => exact h.complete hperm hsub hkind
  | indexStart => exact h.nextIndexEvent hperm hsub (by simp [hkind]) _ (by simp) (by simp)
  | indexEnd => exact h.nextIndexEvent hperm hsub (by simp [hkind]) _ (by simp) (by simp)

/-! ## The invariant -/

theorem exec_keeps_inv {i : Instr} {s t : State} (h : Inv s) (hk : eventKindOf i = none) (hx : exec i s = .next t) : Inv t := by
  obtain ⟨hp, hd, hm, hs⟩ := (inv_iff s).1 h
  exact (inv_iff t).2
    ⟨exec_params hx ▸ hp, exec_keeps_driveInv hx hp hd, exec_keeps_storesInv hx hp hm, exec_keeps_scheduleOk hs hk hx⟩

theorem deliver_keeps_inv {s u t : State} {k : EventKind} (h : Inv s) (hk : takeDue s = some (k, u))
    (hx : exec (eventInstr k) u = .next t) : Inv t := by
  obtain ⟨hp, hd, hm, hs⟩ := (inv_iff s).1 h
  have hschedule := deliver_keeps_scheduleOk hs hk hx
  obtain ⟨_, _, _, _, _, -, -, -, -, -, -, rfl⟩ := takeDue_eq_some hk
  exact (inv_iff t).2 ⟨exec_params hx ▸ hp, exec_keeps_driveInv hx hp hd, exec_keeps_storesInv hx hp hm, hschedule⟩

/-- Settles O45: deliveries and accesses by the two lemmas above; time passes no event, and another agent's store keeps the canonical
form. -/
theorem everyStepKeepsTheInvariant : Obligations.EveryStepKeepsTheInvariant := by
  intro s t hs h
  rcases step_cases_of_queueOk hs.queueOk h with ⟨k, u, hk, hx⟩ | ⟨rest, i, hk, hx⟩ | ⟨-, now', input', rfl, -, hdue⟩ |
    ⟨-, a, w, rest, rfl⟩
  · exact deliver_keeps_inv hs hk hx
  · exact exec_keeps_inv (s := { s with input := rest }) { hs with } hk hx
  · exact { hs with notLate := hdue }
  · exact { hs with memory := Memory.write_wf hs.memory a w }

theorem inv_construct {p : Params} {image : Disk} {m : Memory} (r : HostRegs) (hp : p.wf) (hm : StoresOk p m image) :
    Inv (State.construct p r image m) :=
  (inv_iff _).2 ⟨hp, driveOk_home hp nofun, hm,
    ⟨rfl, fun _ => ⟨_, List.mem_singleton.2 rfl, rfl⟩, nofun, ⟨List.pairwise_singleton _ _, fun _ _ => Nat.zero_le _⟩⟩⟩

/-- Settles O44: construction homes the head and schedules the end of the first pulse. -/
theorem invariantHoldsAfterConstruction : Obligations.InvariantHoldsAfterConstruction :=
  ⟨fun _ r _ _ hp hdisk hmem hsectors => inv_construct r hp ⟨hmem, hdisk, hsectors⟩,
    inv_construct HostRegs.zero (by decide) ⟨rfl, rfl, nofun⟩⟩

end Sys2Proof.Machine

/-! # Memory: the two ports, the byte order and the refusal of invalid transfers -/

namespace Sys2Proof.Machine

/-! ## The ports (R61, R62) -/

/-- Settles O31: the laws of the sparse store, at the keys of the two ports. -/
theorem portsReturnWhatWasStored : Obligations.PortsReturnWhatWasStored :=
  ⟨fun m a _ w hm => ⟨m.read_write_same hm a w, m.read_write_other w, m.write_wf hm a w⟩,
    fun p k a _ sec hk => ⟨k.get_set_same hk a sec, k.get_set_other p sec, k.set_wf hk a sec⟩⟩

/-! ## Byte order (R64) -/

section ByteOrder
variable (lo hi : Byte) (w : Word)

theorem setWidth_and_lowMask : (w &&& 0xFF).setWidth 8 = w.setWidth 8 :=
  BitVec.setWidth_and.trans BitVec.and_allOnes

theorem lowByte_joined : (hi.setWidth 16 <<< 8 ||| lo.setWidth 16).setWidth 8 = lo := by
  ext i h
  simp

theorem highByte_joined : ((hi.setWidth 16 <<< 8 ||| lo.setWidth 16) >>> 8).setWidth 8 = hi := by
  ext i h
  have hword : i < 16 ∧ 8 + i < 16 := by omega
  simp [h, hword]

/-- Each bit comes from the byte that holds it. -/
theorem joined_bytes : ((w >>> 8).setWidth 8).setWidth 16 <<< 8 ||| (w.setWidth 8).setWidth 16 = w := by
  ext i h
  by_cases hlow : i < 8
  · simp [h, hlow]
  · have hhigh : i - 8 < 8 ∧ 8 + (i - 8) = i := by omega
    simp [h, hlow, hhigh]

end ByteOrder

theorem bytesOfWords_wordsOfBytes : ∀ {bs : List Byte}, bs.length % 2 = 0 → bytesOfWords (wordsOfBytes bs) = bs
  | [], _ => rfl
  | [_], h => by simp at h
  | lo :: hi :: rest, h => by
    have hrest : rest.length % 2 = 0 := by simpa [Nat.add_assoc] using h
    rw [wordsOfBytes, bytesOfWords, lowByte_joined, highByte_joined, bytesOfWords_wordsOfBytes hrest]

theorem wordsOfBytes_bytesOfWords (ws : List Word) : wordsOfBytes (bytesOfWords ws) = ws := by
  induction ws with
  | nil => rfl
  | cons w ws ih => rw [bytesOfWords, wordsOfBytes, joined_bytes, ih]

/-- Settles O32: index by index, and two bytes for one word in both round trips. -/
theorem byteOrderRoundTrips : Obligations.ByteOrderRoundTrips := by
  refine ⟨fun bs hbs => ⟨length_wordsOfBytes bs, fun i hi => ?_, bytesOfWords_wordsOfBytes hbs⟩,
    fun ws => ⟨length_bytesOfWords ws, fun i hi => ?_, wordsOfBytes_bytesOfWords ws⟩⟩
  · rw [wordsOfBytes_getD bs hi, BitVec.or_comm]
  · rw [setWidth_and_lowMask, setWidth_and_lowMask, BitVec.setWidth_ushiftRight_eq_extractLsb,
      BitVec.setWidth_eq_extractLsb' (by decide)]
    exact bytesOfWords_getD ws hi

/-! ## Refused transfers (R77, R186, R263) -/

theorem readBlock_of_refused {s : State} {r : Refusal} (h : checkTransfer true s = some r) : readBlock s = .refused r := by
  rw [readBlock_eq, h]

theorem writeBlock_of_refused {writeHeader : Bool} {s : State} {r : Refusal} (h : checkTransfer writeHeader s = some r) :
    writeBlock writeHeader s = .refused r := by
  rw [writeBlock_eq, h]

/-- The commands that transfer a block (R142 to R146). -/
def blockCommands : List Command := [.readChk, .readDiag, .writeChk, .writeFirst, .format]

/-- A block command is refused as its transfer is. Only `WriteChk` leaves the header buffer alone (R144). -/
theorem dispatch_of_refused {c : Command} {s : State} {r : Refusal} (hc : c ∈ blockCommands)
    (h : checkTransfer (decide (c ≠ .writeChk)) s = some r) : dispatch c s = .refused r := by
  simp only [blockCommands, List.mem_cons, List.not_mem_nil, or_false] at hc
  rcases hc with rfl | rfl | rfl | rfl | rfl
  · exact readBlock_of_refused h
  · exact readBlock_of_refused h
  · exact writeBlock_of_refused h
  · exact writeBlock_of_refused h
  · exact writeBlock_of_refused h

/-- A refused transfer refuses the whole command write (R140). -/
theorem exec_of_refused {i : Instr} {w : Word} {s : State} {r : Refusal} (hw : commandWord i = some w) (hi : i.wf = true)
    (hc : commandOf w ∈ blockCommands)
    (h : checkTransfer (decide (commandOf w ≠ .writeChk)) s = some r) : exec i s = .refused r := by
  obtain ⟨c, hcode, hexec⟩ := exec_eq_commandWrite hw
  rw [hexec, ← hcode hi, dispatch_of_refused hc h]
  rfl

/-- Settles O18: the check of the transfer names the refusal. -/
theorem invalidTransfersAreRefused : Obligations.InvalidTransfersAreRefused := by
  refine ⟨fun i w s hw hi hc hdisk => exec_of_refused hw hi hc (checkTransfer_disk hdisk),
    fun i w s hw hi hc hdisk hdata => exec_of_refused hw hi hc (checkTransfer_memory hdisk (.inl hdata)),
    fun i w s hw hi hc hdisk hheader => ?_⟩
  have hblock : ∀ c ∈ [Command.readChk, .readDiag, .writeFirst, .format], c ∈ blockCommands ∧ c ≠ .writeChk := by decide
  obtain ⟨hc, hne⟩ := hblock _ hc
  exact exec_of_refused hw hi hc (checkTransfer_memory hdisk (.inr ⟨decide_eq_true hne, hheader⟩))

end Sys2Proof.Machine

/-! # Encoding: the round trip of the decoder, the programmed addresses and the status word -/

namespace Sys2Proof

/-! ## Decoding an encoding (R91 to R93, R103, R104, R110) -/

/-- The instruction of the CMD row that a code selects (R92). -/
def instrOfCommand : Command → Word → Instr
  | .idle => .idle
  | .readChk => .readChk
  | .readDiag => .readDiag
  | .writeChk => .writeChk
  | .writeFirst => .writeFirst
  | .format => .format
  | .seek => .seek
  | .reset => .cmdReset

theorem decode_commandView (w : Word) : decode [0x0020, w] = .ok (instrOfCommand (commandOf w) w) := by
  change decodeCommand 0 w = _
  unfold decodeCommand
  cases commandOf w <;> rfl

theorem decode_stepView (w : Word) : decode [0x0010, w] = .ok (if stepBit w then .stepSet w else .stepRelease w) := rfl

theorem decode_directionView (w : Word) : decode [0x0011, w] = .ok (if dirBit w then .dirAway w else .dirIn w) := rfl

theorem decode_seekBy (operands : List Word) : decode (0x0041 :: operands) = .ok (.seekBy (intOfWords operands)) := rfl

/-- A word of the CMD row with code `n` decodes to that row's instruction: the mask of the row picks the code. -/
theorem decode_commandRow {n : Nat} {w : Word} (hrow : matchesRow 0x0007 (BitVec.ofNat 16 n) w = true) (hn : n < 8) :
    decode [0x0020, w] = .ok (instrOfCommand (commandOfCode (BitVec.ofNat 3 n)) w) := by
  rw [decode_commandView, Machine.commandOf_of_mask hrow hn]

/-- Only the CMD and CMDMOD rows need the row test: their descriptor names the view, and the word itself picks the row in it. -/
theorem decode_encode {i : Instr} (h : i.wf = true) : decode (encode i) = .ok i := by
  cases i with
  | idle w => exact decode_commandRow (n := 0) h (by decide)
  | readChk w => exact decode_commandRow (n := 1) h (by decide)
  | readDiag w => exact decode_commandRow (n := 2) h (by decide)
  | writeChk w => exact decode_commandRow (n := 3) h (by decide)
  | writeFirst w => exact decode_commandRow (n := 4) h (by decide)
  | format w => exact decode_commandRow (n := 5) h (by decide)
  | seek w => exact decode_commandRow (n := 6) h (by decide)
  | cmdReset w => exact decode_commandRow (n := 7) h (by decide)
  | stepSet w =>
    have hstep : stepBit w = true := by rwa [Instr.wf, matchesRow_stepSet] at h
    rw [encode, decode_stepView, if_pos hstep]
  | stepRelease w =>
    have hstep : stepBit w = false := by rwa [Instr.wf, matchesRow_stepRelease, Bool.not_eq_true'] at h
    rw [encode, decode_stepView, if_neg (Bool.eq_false_iff.1 hstep)]
  | dirIn w =>
    have hdir : dirBit w = false := by rwa [Instr.wf, matchesRow_dirIn, Bool.not_eq_true'] at h
    rw [encode, decode_directionView, if_neg (Bool.eq_false_iff.1 hdir)]
  | dirAway w =>
    have hdir : dirBit w = true := by rwa [Instr.wf, matchesRow_dirAway] at h
    rw [encode, decode_directionView, if_pos hdir]
  | seekBy d => rw [encode, decode_seekBy, intOfWords_wordsOfInt]
  | _ => rfl

/-- Settles O2: every format's descriptor leads to the row it was written for. -/
theorem decodeEncodeRoundTrip : Obligations.DecodeEncodeRoundTrip := fun _ => decode_encode

/-- Settles O3: each format answers only instructions of its rows. -/
theorem decodedInstructionsAreWellFormed : Obligations.DecodedInstructionsAreWellFormed := fun _ _ => decode_wf

/-- Settles O1: the vectors are words and fields written out, which the decoder evaluates. -/
theorem specWordsDecode : Obligations.SpecWordsDecode := by
  unfold Obligations.SpecWordsDecode
  decide

end Sys2Proof

namespace Sys2Proof.Machine

/-! ## The programmed addresses (R101, R109) -/

/-- Every bit of an address comes from the half that holds it. -/
theorem combine_halves (A : Addr) : combine (A.setWidth 16) ((A >>> 16).setWidth 16) = A := by
  ext i h
  by_cases hlow : i < 16
  · simp [combine, h, hlow]
  · have hhigh : i - 16 < 16 ∧ 16 + (i - 16) = i := by omega
    simp [combine, h, hlow, hhigh]

/-- What the two writes of a pair store when they carry the transformed halves of `A` (R99, R100): the halves themselves. -/
theorem combine_decoded_halves (p : Params) (A : Addr) :
    combine (unfrob p (unfrob p (A.setWidth 16))) (invertHigh (invertHigh ((A >>> 16).setWidth 16))) = A := by
  rw [unfrob_unfrob, invertHigh_invertHigh, combine_halves]

/-- Settles O12: each write undoes its transform, so the pair holds the halves of `A`. -/
theorem programmedAddressesAreReached : Obligations.ProgrammedAddressesAreReached :=
  ⟨fun A s => ⟨_, _, rfl, rfl, unfrob_unfrob _ _, invertHigh_invertHigh _, combine_decoded_halves s.params A, rfl⟩,
    fun A s => ⟨_, _, rfl, rfl, unfrob_unfrob _ _, invertHigh_invertHigh _, combine_decoded_halves s.params A, rfl⟩,
    by decide, by decide⟩

/-! ## The status word (R94, R95) -/

theorem statusCode_eq (p : Params) (c : ControllerStatus) :
    statusCode p c = if c = .busy then p.statusBusy else p.statusDone := by
  cases c <;> rfl

theorem getElem_flagAt (i : Nat) (b : Bool) {j : Nat} (hj : j < 16) : (flagAt i b)[j] = (decide (j = i) && b) := by
  rcases Nat.lt_trichotomy j i with hlt | rfl | hgt
  · simp [flagAt, hlt, hlt.ne]
  · simp [flagAt]
  · have habove : j - i ≠ 0 := by omega
    simp [flagAt, hgt.ne', habove]

/-- The word bit by bit: the code has bits 2:0, and each flag its own bit. -/
theorem getElem_statusWord (p : Params) (st : StatusFields) {j : Nat} (hj : j < 16) :
    (statusWord p st)[j] =
      ((statusCode p st.controllerStatus).getLsbD j || decide (j = 3) && st.index || decide (j = 4) && st.trackZero ||
        decide (j = 5) && st.driveFault || decide (j = 6) && st.seekComplete || decide (j = 7) && st.unitReady) := by
  simp [statusWord, getElem_flagAt]

/-- Settles O13: bits 2:0 hold no flag, and bits 15:8 neither a flag nor a bit of the code. -/
theorem statusWordLayout : Obligations.StatusWordLayout := by
  intro p st
  rw [← statusCode_eq]
  refine ⟨?_, ?_, ?_, ?_, ?_, ?_, ?_⟩
  · ext i hi
    have hflags : i < 16 ∧ i ≠ 3 ∧ i ≠ 4 ∧ i ≠ 5 ∧ i ≠ 6 ∧ i ≠ 7 := by omega
    simp [getElem_statusWord, hi, hflags]
  · simp [getElem_statusWord]
  · simp [getElem_statusWord]
  · simp [getElem_statusWord]
  · simp [getElem_statusWord]
  · simp [getElem_statusWord]
  · ext i hi
    have hflags : 8 + i < 16 ∧ 8 + i ≠ 3 ∧ 8 + i ≠ 4 ∧ 8 + i ≠ 5 ∧ 8 + i ≠ 6 ∧ 8 + i ≠ 7 := by omega
    have hcode : (statusCode p st.controllerStatus).getLsbD (8 + i) = false := BitVec.getLsbD_of_ge _ _ (by omega)
    simp [getElem_statusWord, hflags, hcode]

end Sys2Proof.Machine

/-! # Register operations: the nine plain writes, the status read, and which instruction writes which element and which flag -/

namespace Sys2Proof.Machine

/-! ## The plain writes and the status read (R121 to R130) -/

/-- The complement that the high halves are stored under, as an exclusive or (R100). -/
theorem invertHigh_eq_xor (v : Word) : invertHigh v = v ^^^ 0xFFFF := BitVec.xor_allOnes.symm

/-- Settles O9: each write stores the fields its rule names; the two high halves store the complement. -/
theorem plainWritesLoadTheirRegisters : Obligations.PlainWritesLoadTheirRegisters := by
  intro v s
  rw [← invertHigh_eq_xor]
  exact ⟨rfl, rfl, rfl, rfl, rfl, rfl, rfl, rfl, rfl⟩

/-- Settles O14: the meaning of the read writes the list of words returned and nothing else. -/
theorem readStatusHasNoSideEffect : Obligations.ReadStatusHasNoSideEffect := fun _ => rfl

/-! ## What a dispatched command may write -/

section Dispatch
variable {c : Command} {s t : State}

theorem dispatch_mem (h : dispatch c s = .next t) : t.mem = s.mem ∨ c ∈ [Command.readChk, .readDiag] := by
  rcases dispatch_cases h with ⟨-, rfl⟩ | ⟨hc, -, -⟩ | ⟨-, -, rfl⟩ | ⟨-, -, rfl⟩ | ⟨-, rfl⟩ | ⟨-, rfl⟩
  case inr.inl => exact .inr (by simpa using hc)
  all_goals exact .inl (by simp)

theorem dispatch_disk (h : dispatch c s = .next t) : t.disk = s.disk ∨ c ∈ [Command.writeChk, .writeFirst, .format] := by
  rcases dispatch_cases h with ⟨-, rfl⟩ | ⟨-, -, rfl⟩ | ⟨hc, -, -⟩ | ⟨hc, -, -⟩ | ⟨-, rfl⟩ | ⟨-, rfl⟩
  case inr.inr.inl => exact .inr (by simp [hc])
  case inr.inr.inr.inl => exact .inr (by simp [hc])
  all_goals exact .inl (by simp)

theorem dispatch_log (h : dispatch c s = .next t) : t.log = s.log ∨ c = .seek := by
  rcases dispatch_cases h with ⟨-, rfl⟩ | ⟨-, -, rfl⟩ | ⟨-, -, rfl⟩ | ⟨-, -, rfl⟩ | ⟨hc, -⟩ | ⟨-, rfl⟩
  case inr.inr.inr.inr.inl => exact .inr hc
  all_goals exact .inl (by simp)

/-- Apart from `Reset`, a command writes at most the status field, and only a block command does (R200). -/
theorem dispatch_status (h : dispatch c s = .next t) (hc : c ≠ .reset) :
    ∃ x, t.status = { s.status with controllerStatus := x } ∧ (x = s.status.controllerStatus ∨ c ∈ blockCommands) := by
  rcases dispatch_cases h with ⟨-, rfl⟩ | ⟨hblock, -, rfl⟩ | ⟨hblock, -, rfl⟩ | ⟨hblock, -, rfl⟩ | ⟨-, rfl⟩ | ⟨hreset, -⟩
  · exact ⟨_, rfl, .inl rfl⟩
  · exact ⟨_, enterBusy_status _, .inr (by rcases hblock with rfl | rfl <;> decide)⟩
  · exact ⟨_, enterBusy_status _, .inr (by simp [blockCommands, hblock])⟩
  · exact ⟨_, enterBusy_status _, .inr (by rcases hblock with rfl | rfl <;> decide)⟩
  · exact ⟨_, rfl, .inl rfl⟩
  · exact absurd hreset hc

end Dispatch

/-- A well-formed command write that completes: the command its word selects, then the seek run with the retained word (R140). -/
theorem exec_commandOf_next {i : Instr} {w : Word} {s t : State} (hw : commandWord i = some w) (hi : i.wf = true)
    (h : exec i s = .next t) : ∃ u, dispatch (commandOf w) s = .next u ∧ t = seekRun (retain w u) := by
  obtain ⟨c, hc, hexec⟩ := exec_eq_commandWrite hw
  rw [hc hi]
  exact commandWrite_next ((hexec s).symm.trans h)

/-! ## Which instruction writes which element -/

/-- Settles O47: a command write writes what its command may and moves the seek machine; every other instruction has its one element. -/
theorem everyElementHasItsWriters : Obligations.EveryElementHasItsWriters := by
  intro i s t hi h
  obtain ⟨hparams, hnow, hinput, hties⟩ := exec_frame h
  refine ⟨hparams, hnow, hinput, hties, ?_⟩
  cases hw : commandWord i with
  | some w =>
    obtain ⟨u, hd, rfl⟩ := exec_commandOf_next hw hi h
    obtain ⟨-, hregs, -, -, -, hreads, -⟩ := dispatch_frame hd
    simp only [seekRun_mem, seekRun_disk, seekRun_regs, seekRun_log, seekRun_statusReads, retain_mem, retain_disk, retain_regs,
      retain_log, retain_statusReads]
    exact ⟨(dispatch_mem hd).imp_right fun hc => ⟨w, rfl, hc⟩, (dispatch_disk hd).imp_right fun hc => ⟨w, rfl, hc⟩, .inl hregs,
      (dispatch_log hd).imp_right fun hc => ⟨w, rfl, hc⟩, .inr (.inl nofun), .inr (.inl nofun), .inl hreads⟩
  | none =>
    rcases exec_other hw h with ⟨_, v, rfl, hwrite⟩ | ⟨rfl, rfl⟩ | ⟨-, rfl⟩ | ⟨-, rfl⟩ | ⟨-, rfl⟩ | ⟨rfl, rfl⟩ | ⟨d, rfl, rfl⟩
    · exact ⟨.inl rfl, .inl rfl, .inr ⟨v, hwrite⟩, .inl rfl, .inl rfl, .inl ⟨rfl, rfl⟩, .inl rfl⟩
    all_goals simp

/-! ## Which instruction writes which flag -/

/-- Everything a seek run from a resting state can do: nothing, start a pulse (R161), or complete one (R162, R163). -/
theorem seekRun_cases_of_rest {s : State} (h : s.seekState ≠ .seekComplete) :
    seekRun s = s ∨
    (s.seekState = .waitForStepSet ∧ stepBit s.seekData = true ∧
      seekRun s = { s with status := { s.status with seekComplete := false }, seekState := .waitForStepRelease }) ∨
    (s.seekState = .waitForStepRelease ∧ stepBit s.seekData = false ∧ seekRun s = afterAction s) := by
  cases hs : s.seekState with
  | waitForStepSet =>
    cases hb : stepBit s.seekData with
    | false => exact .inl (seekRun_set_idle hs hb)
    | true => exact .inr (.inl ⟨rfl, rfl, seekRun_set_step hs hb⟩)
  | waitForStepRelease =>
    cases hb : stepBit s.seekData with
    | false => exact .inr (.inr ⟨rfl, rfl, seekRun_release_step hs hb⟩)
    | true => exact .inl (seekRun_release_held hs hb)
  | seekComplete => exact absurd hs h

/-- The two flags of the seek machine after the seek run of a command write: `trackZero` is written where a pulse is completed, and
`seekComplete` also where one starts. -/
theorem seekRun_retain_flags {s : State} (h : s.seekState ≠ .seekComplete) (w : Word) :
    ((seekRun (retain w s)).status.trackZero = s.status.trackZero ∨ s.seekState = .waitForStepRelease ∧ stepBit w = false) ∧
    ((seekRun (retain w s)).status.seekComplete = s.status.seekComplete ∨ (s.seekState = .waitForStepSet ↔ stepBit w = true)) := by
  rcases seekRun_cases_of_rest (s := retain w s) h with hrun | ⟨hset, hb, hrun⟩ | ⟨hrelease, hb, hrun⟩
  · rw [hrun]
    exact ⟨.inl rfl, .inl rfl⟩
  · rw [hrun]
    exact ⟨.inl rfl, .inr (iff_of_true hset hb)⟩
  · exact ⟨.inr ⟨hrelease, hb⟩, .inr (iff_of_false (fun hset => nomatch hset.symm.trans hrelease) (Bool.eq_false_iff.1 hb))⟩

/-- Settles O48: a command may write the status field, its seek run the two flags of the seek machine, and every other instruction its
own flag. -/
theorem everyFlagHasItsWriters : Obligations.EveryFlagHasItsWriters := by
  intro i s t hi hrest h hreset
  cases hw : commandWord i with
  | some w =>
    obtain ⟨u, hd, rfl⟩ := exec_commandOf_next hw hi h
    obtain ⟨-, -, hseek, -⟩ := dispatch_frame hd
    obtain ⟨x, hu, hx⟩ := dispatch_status hd (by simpa [isReset, hw] using hreset)
    obtain ⟨htrack, hcomplete⟩ := seekRun_retain_flags (hseek ▸ hrest) w
    rw [hseek, hu] at htrack hcomplete
    refine ⟨?_, ?_, .inl ?_, ?_, htrack.imp_right fun hpulse => .inr ⟨w, rfl, hpulse⟩,
      hcomplete.imp_right fun hpulse => ⟨w, rfl, hpulse⟩⟩
    · simp [hu]
    · simp [hu]
    · simp [hu]
    · exact hx.imp (fun hx => by simp [hu, hx]) fun hblock => .inr ⟨w, rfl, hblock⟩
  | none =>
    rcases exec_other hw h with ⟨_, _, rfl, -⟩ | ⟨-, rfl⟩ | ⟨rfl, rfl⟩ | ⟨rfl, rfl⟩ | ⟨rfl, rfl⟩ | ⟨rfl, -⟩ | ⟨d, rfl, rfl⟩
    case inr.inr.inr.inr.inr.inl => cases hreset
    all_goals simp

end Sys2Proof.Machine

/-! # Commands: the command write, what it leaves of the seek machine, and the commands that agree -/

namespace Sys2Proof.Machine

/-! ## The command write (R140) -/

/-- The row test of a well-formed instruction fixes the command it dispatches: the one its word selects. -/
theorem exec_eq_commandWrite_of_wf {i : Instr} {w : Word} (hw : commandWord i = some w) (hi : i.wf = true) (s : State) :
    exec i s = commandWrite (dispatch (commandOf w) s) w := by
  obtain ⟨c, hc, hexec⟩ := exec_eq_commandWrite hw
  rw [hexec, ← hc hi]

/-- Settles O15: the write of the word is the same command write. -/
theorem commandRowsAreTheWriteOfTheirWord : Obligations.CommandRowsAreTheWriteOfTheirWord :=
  fun _ _ s hw hi => exec_eq_commandWrite_of_wf hw hi s

/-- An allowed command write completes: the command its word selects, then the seek run with the retained word. -/
theorem exec_of_allowed {i : Instr} {w : Word} {s : State} (hw : commandWord i = some w) (hi : i.wf = true)
    (h : CommandAllowed (commandOf w) s) :
    ∃ u, dispatch (commandOf w) s = .next u ∧ exec i s = .next (seekRun (retain w u)) := by
  obtain ⟨u, hu⟩ := dispatch_of_allowed h
  refine ⟨u, hu, ?_⟩
  rw [exec_eq_commandWrite_of_wf hw hi, hu]
  rfl

/-- Settles O16: `Idle` and `Seek` are their one update; after the reset of the flags the status field is Done, so `Reset` enters Busy and
arms its completion. -/
theorem commandsWithoutTransferComplete : Obligations.CommandsWithoutTransferComplete := by
  refine fun w s => ⟨rfl, rfl, ?_⟩
  change Host.Outcome.next (seekRun (retain w (enterBusy (resetFlagsAndPosition s)))) = _
  rw [enterBusy_of_done _ rfl]
  rfl

/-! ## The seek run ends quiet (R164) -/

theorem seekClock_seekRun_of_set {s : State} (h : s.seekState = .waitForStepSet) : seekClock (seekRun s) = none := by
  cases hb : stepBit s.seekData with
  | false => simp [seekRun_set_idle h hb, seekClock_set h, hb]
  | true => simp [seekRun_set_step h hb, seekClock_release, hb]

/-- No transition is enabled after a seek run, from any state. -/
@[simp] theorem seekClock_seekRun (s : State) : seekClock (seekRun s) = none := by
  cases h : s.seekState with
  | waitForStepSet => exact seekClock_seekRun_of_set h
  | waitForStepRelease =>
    cases hb : stepBit s.seekData with
    | false => simp [seekRun_release_step h hb, seekClock_set (afterAction_seekState s), hb]
    | true => simp [seekRun_release_held h hb, seekClock_release h, hb]
  | seekComplete =>
    rw [seekRun_seekComplete h]
    exact seekClock_seekRun_of_set (afterAction_seekState s)

/-- Settles O17: the dispatched command keeps the frame, and the seek run keeps it too and ends quiet. -/
theorem allowedCommandWritesComplete : Obligations.AllowedCommandWritesComplete := by
  intro i w s hw hi h
  obtain ⟨u, hu, hexec⟩ := exec_of_allowed hw hi h
  obtain ⟨hparams, hregs, -, hnow, hinput, hreads, -⟩ := dispatch_frame hu
  exact ⟨_, hexec, by simp [hparams, hregs, hnow, hinput, hreads]⟩

/-! ## What the seek run reads of the retained word (R161 to R165) -/

section RetainedWord
variable {w : Word} {s : State}

theorem retain_retain (w w' : Word) (s : State) : retain w (retain w' s) = retain w s := rfl

theorem afterAction_retain (hd : dirBit w = dirBit s.seekData) : afterAction (retain w s) = retain w (afterAction s) := by
  unfold afterAction singleSeek
  rw [retain_seekData, hd]
  split <;> rfl

theorem seekClock_seekData {t : State} (h : seekClock s = some t) : t.seekData = s.seekData := by
  cases hs : s.seekState with
  | waitForStepSet =>
    rw [seekClock_set hs] at h
    split at h <;> cases h
    rfl
  | waitForStepRelease =>
    rw [seekClock_release hs] at h
    split at h <;> cases h
    rfl
  | seekComplete =>
    rw [seekClock_seekComplete hs] at h
    cases h
    rfl

/-- A transition reads the step bit and the direction bit of the retained word and carries the word along. -/
theorem seekClock_retain (hb : stepBit w = stepBit s.seekData) (hd : dirBit w = dirBit s.seekData) :
    seekClock (retain w s) = (seekClock s).map (retain w) := by
  cases hs : s.seekState with
  | waitForStepSet =>
    rw [seekClock_set hs, seekClock_set (s := retain w s) hs, retain_seekData, hb]
    split <;> rfl
  | waitForStepRelease =>
    rw [seekClock_release hs, seekClock_release (s := retain w s) hs, retain_seekData, hb]
    split <;> rfl
  | seekComplete =>
    rw [seekClock_seekComplete hs, seekClock_seekComplete (s := retain w s) hs, afterAction_retain hd]
    rfl

theorem seekLoop_retain (n : Nat) (hb : stepBit w = stepBit s.seekData) (hd : dirBit w = dirBit s.seekData) :
    seekLoop n (retain w s) = retain w (seekLoop n s) := by
  induction n generalizing s with
  | zero => rfl
  | succ n ih =>
    rw [seekLoop, seekLoop, seekClock_retain hb hd]
    cases hc : seekClock s with
    | none => rfl
    | some t =>
      have hdata := seekClock_seekData hc
      exact ih (hdata ▸ hb) (hdata ▸ hd)

theorem seekRun_retain (hb : stepBit w = stepBit s.seekData) (hd : dirBit w = dirBit s.seekData) :
    seekRun (retain w s) = retain w (seekRun s) :=
  seekLoop_retain 3 hb hd

/-- Command writes of one dispatched command whose words agree in the step and the direction bit differ in the retained word alone. -/
theorem commandWrite_eq_but_for_retained {w' : Word} (r : Result) (x : Word) (hb : stepBit w = stepBit w')
    (hd : dirBit w = dirBit w') : andThen (commandWrite r w) (retain x) = andThen (commandWrite r w') (retain x) := by
  cases r with
  | next u =>
    have hrun : seekRun (retain w u) = retain w (seekRun (retain w' u)) := by
      rw [← seekRun_retain (s := retain w' u) hb hd, retain_retain]
    simp only [commandWrite, andThen_next, hrun, retain_retain]
  | fault x => rfl
  | refused x => rfl

end RetainedWord

/-- Settles O19: the twins dispatch the same procedure, and the seek run tells the words apart by the two bits only. -/
theorem twinCommandsAgree : Obligations.TwinCommandsAgree := fun _ _ s hb hd =>
  ⟨commandWrite_eq_but_for_retained (readBlock s) 0 hb hd, commandWrite_eq_but_for_retained (writeBlock true s) 0 hb hd⟩

end Sys2Proof.Machine

/-! # The seek machine: one pulse, one clamped move, one interrupt -/

namespace Sys2Proof.Machine

/-! ## The records of R168's pulses -/

/-- The record of the pulses of `r` and then those of `r'`: the later value of `seekComplete` stands. -/
def PulseRecord.followedBy (r r' : PulseRecord) : PulseRecord :=
  ⟨r'.seekState, r.directions ++ r'.directions, r'.seekComplete.or r.seekComplete⟩

theorem PulseRecord.next_followedBy (r r' : PulseRecord) (w : Word) : (r.followedBy r').next w = r.followedBy (r'.next w) := by
  obtain ⟨st, directions, complete⟩ := r'
  cases st <;> cases hb : stepBit w <;> simp [next, followedBy, hb]

theorem pulsesOf_cons (st : SeekState) (w : Word) (ws : List Word) :
    pulsesOf st (w :: ws) = (pulsesOf st [w]).followedBy (pulsesOf (pulsesOf st [w]).seekState ws) := by
  have hstart (r : PulseRecord) : r = r.followedBy ⟨r.seekState, [], none⟩ := by simp [PulseRecord.followedBy]
  calc pulsesOf st (w :: ws) = ws.foldl PulseRecord.next (pulsesOf st [w]) := rfl
    _ = ws.foldl PulseRecord.next ((pulsesOf st [w]).followedBy ⟨(pulsesOf st [w]).seekState, [], none⟩) := by rw [← hstart]
    _ = _ := List.foldl_hom _ fun r' v => PulseRecord.next_followedBy _ r' v

theorem cylinderAfter_append (p : Params) (start : Nat) (l l' : List Bool) :
    cylinderAfter p start (l ++ l') = cylinderAfter p (cylinderAfter p start l) l' := List.foldl_append

theorem pulsesOf_waitForStepSet (w : Word) : pulsesOf .waitForStepSet [w] =
    if stepBit w then ⟨.waitForStepRelease, [], some false⟩ else ⟨.waitForStepSet, [], none⟩ := rfl

theorem pulsesOf_waitForStepRelease (w : Word) : pulsesOf .waitForStepRelease [w] =
    if stepBit w then ⟨.waitForStepRelease, [], none⟩ else ⟨.waitForStepSet, [dirBit w], some true⟩ := rfl

/-- One word moves the head where it releases an armed pulse, and nowhere else (R165). -/
theorem cylinderAfter_pulsesOf_singleton (p : Params) (start : Nat) (st : SeekState) (w : Word) :
    cylinderAfter p start (pulsesOf st [w]).directions =
      if st = .waitForStepRelease ∧ stepBit w = false then
        if dirBit w then min (start + 1) (p.cylCount - 1) else start - 1
      else start := by
  cases st with
  | waitForStepSet => cases hb : stepBit w <;> simp [pulsesOf_waitForStepSet, hb, cylinderAfter]
  | waitForStepRelease => cases hb : stepBit w <;> simp [pulsesOf_waitForStepRelease, hb, cylinderAfter]
  | seekComplete => rfl

/-! ## The seek run and the record of its word -/

/-- R170 and the record, row by row: a seek run that starts at rest leaves the state, arms the pulse, or ends it with the action of
R163. -/
theorem seekRun_rows {s : State} (h : s.seekState ≠ .seekComplete) :
    (seekRun s = s ∧ pulsesOf s.seekState [s.seekData] = ⟨s.seekState, [], none⟩) ∨
    (seekRun s = { s with status := { s.status with seekComplete := false }, seekState := .waitForStepRelease } ∧
      pulsesOf s.seekState [s.seekData] = ⟨.waitForStepRelease, [], some false⟩) ∨
    (seekRun s = afterAction s ∧ pulsesOf s.seekState [s.seekData] = ⟨.waitForStepSet, [dirBit s.seekData], some true⟩) := by
  cases hs : s.seekState with
  | waitForStepSet =>
    rw [pulsesOf_waitForStepSet]
    cases hb : stepBit s.seekData with
    | false => exact .inl ⟨seekRun_set_idle hs hb, rfl⟩
    | true => exact .inr (.inl ⟨seekRun_set_step hs hb, rfl⟩)
  | waitForStepRelease =>
    rw [pulsesOf_waitForStepRelease]
    cases hb : stepBit s.seekData with
    | false => exact .inr (.inr ⟨seekRun_release_step hs hb, rfl⟩)
    | true => exact .inl ⟨seekRun_release_held hs hb, rfl⟩
  | seekComplete => exact absurd hs h

@[simp] theorem callCount_raise_afterAction (s : State) : callCount .raise (afterAction s) = callCount .raise s + 1 := by
  simp [callCount, afterAction]

/-- The raises and the seek state of `t` are what the record `r` makes of those of `s`. -/
structure PulsesCounted (s : State) (r : PulseRecord) (t : State) : Prop where
  raises : callCount .raise t = callCount .raise s + r.directions.length
  seekState : t.seekState = r.seekState

/-- The head and `seekComplete` of `t` are what the record `r` makes of those of `s`. -/
structure HeadMoved (s : State) (r : PulseRecord) (t : State) : Prop where
  cylinder : t.physicalCylinder = cylinderAfter s.params s.physicalCylinder r.directions
  seekComplete : t.status.seekComplete = r.seekComplete.getD s.status.seekComplete

theorem PulsesCounted.trans {s t u : State} {r r' : PulseRecord} (h : PulsesCounted s r t) (h' : PulsesCounted t r' u) :
    PulsesCounted s (r.followedBy r') u :=
  ⟨by simp [PulseRecord.followedBy, h'.raises, h.raises, Nat.add_assoc], h'.seekState⟩

theorem HeadMoved.trans {s t u : State} {r r' : PulseRecord} (hp : t.params = s.params) (h : HeadMoved s r t)
    (h' : HeadMoved t r' u) : HeadMoved s (r.followedBy r') u :=
  ⟨by simp [PulseRecord.followedBy, cylinderAfter_append, h'.cylinder, h.cylinder, hp],
    by simp [PulseRecord.followedBy, Option.getD_or, h'.seekComplete, h.seekComplete]⟩

theorem seekRun_pulsesCounted {s : State} (h : s.seekState ≠ .seekComplete) :
    PulsesCounted s (pulsesOf s.seekState [s.seekData]) (seekRun s) := by
  rcases seekRun_rows h with ⟨hrun, hr⟩ | ⟨hrun, hr⟩ | ⟨hrun, hr⟩ <;> rw [hrun, hr]
  · exact ⟨rfl, rfl⟩
  · exact ⟨rfl, rfl⟩
  · exact ⟨callCount_raise_afterAction s, rfl⟩

/-- A head on the drive makes the one clamped single-cylinder seek of a released pulse (R165, R166), and no other move. -/
theorem seekRun_headMoved {s : State} (h : DriveInv s) : HeadMoved s (pulsesOf s.seekState [s.seekData]) (seekRun s) := by
  rcases seekRun_rows h.seekState with ⟨hrun, hr⟩ | ⟨hrun, hr⟩ | ⟨hrun, hr⟩ <;> rw [hrun, hr]
  · exact ⟨rfl, rfl⟩
  · exact ⟨rfl, rfl⟩
  · exact ⟨singleSeek_physicalCylinder h.position, rfl⟩

/-! ## A command write and the record of its word -/

theorem Inv.driveInv {s : State} (h : Inv s) : DriveInv s :=
  ⟨h.position, h.trackZero, h.driveFault, h.unitReady, h.seekState⟩

section CommandWrite
variable {c : Command} {s t u : State}

/-- No command raises the interrupt: `Idle` clears it, the others leave it (R141 to R148). -/
theorem callCount_raise_dispatch (h : dispatch c s = .next u) : callCount .raise u = callCount .raise s := by
  rcases dispatch_irq h with ⟨-, htrace, -⟩ | ⟨-, htrace, -⟩ <;> simp [callCount, htrace]

/-- The count of a command write, `Reset` words included: a command writes neither the raises nor the seek state. -/
theorem commandWrite_pulsesCounted (hs : s.seekState ≠ .seekComplete) (h : dispatch c s = .next u) (w : Word) :
    PulsesCounted s (pulsesOf s.seekState [w]) (seekRun (retain w u)) := by
  obtain ⟨-, -, hseek, -⟩ := dispatch_frame h
  obtain ⟨hraises, hstate⟩ := seekRun_pulsesCounted (s := retain w u) (hseek ▸ hs)
  rw [retain_seekState, retain_seekData, hseek] at hraises hstate
  exact ⟨by rw [hraises, ← callCount_raise_dispatch h]; rfl, hstate⟩

/-- The head and `seekComplete` of a command write, counted from where the command leaves them. -/
theorem commandWrite_headMoved (hs : Inv s) (h : dispatch c s = .next u) (w : Word) :
    HeadMoved u (pulsesOf s.seekState [w]) (seekRun (retain w u)) := by
  obtain ⟨-, -, hseek, -⟩ := dispatch_frame h
  have hu := dispatch_keeps_driveInv hs.params hs.driveInv h
  have hmoved := seekRun_headMoved (s := retain w u) hu
  rw [retain_seekState, retain_seekData, hseek] at hmoved
  exact ⟨hmoved.cylinder, hmoved.seekComplete⟩

/-- The cylinder after a command write: the command's, homed by `Reset`, and the single-cylinder seek of a released pulse. -/
theorem commandWrite_physicalCylinder (hs : Inv s) (h : dispatch c s = .next u) (w : Word) :
    (seekRun (retain w u)).physicalCylinder =
      cylinderAfter s.params (if c = .reset then 0 else s.physicalCylinder) (pulsesOf s.seekState [w]).directions := by
  obtain ⟨hparams, -⟩ := dispatch_frame h
  rw [(commandWrite_headMoved hs h w).cylinder, dispatch_physicalCylinder h, hparams]

/-- Where the command is not `Reset`, which leaves the head and `seekComplete` alone, both count from the state before the write. -/
theorem commandWrite_headMoved_of_ne_reset (hs : Inv s) (h : dispatch c s = .next u) (hc : c ≠ .reset) (w : Word) :
    HeadMoved s (pulsesOf s.seekState [w]) (seekRun (retain w u)) := by
  obtain ⟨x, hstatus, -⟩ := dispatch_status h hc
  refine ⟨by rw [commandWrite_physicalCylinder hs h, if_neg hc], ?_⟩
  rw [(commandWrite_headMoved hs h w).seekComplete, hstatus]

theorem writeCommands_cons {w : Word} {ws : List Word} (h : writeCommands (w :: ws) s = .next t) :
    ∃ u, exec (.writeCommand w) s = .next u ∧ writeCommands ws u = .next t := by
  rw [writeCommands] at h
  split at h
  · exact ⟨_, ‹_›, h⟩
  · cases h
  · cases h

end CommandWrite

/-! ## A list of command writes (R168) -/

/-- The count over a list of words, by induction on the list: every write keeps the invariant, so the next one starts at rest. -/
theorem writeCommands_pulsesCounted {words : List Word} {s t : State} (hs : Inv s) (h : writeCommands words s = .next t) :
    PulsesCounted s (pulsesOf s.seekState words) t := by
  induction words generalizing s with
  | nil =>
    cases h
    exact ⟨rfl, rfl⟩
  | cons w ws ih =>
    obtain ⟨u, hx, hws⟩ := writeCommands_cons h
    obtain ⟨v, hd, rfl⟩ := commandWrite_next hx
    have hfirst := commandWrite_pulsesCounted hs.seekState hd w
    have hrest := ih (exec_keeps_inv hs rfl hx) hws
    rw [hfirst.seekState] at hrest
    rw [pulsesOf_cons]
    exact hfirst.trans hrest

/-- The moves over a list of words without a `Reset`, by the same induction. -/
theorem writeCommands_headMoved {words : List Word} {s t : State} (hs : Inv s) (h : writeCommands words s = .next t)
    (hreset : ∀ w ∈ words, commandOf w ≠ .reset) : HeadMoved s (pulsesOf s.seekState words) t := by
  induction words generalizing s with
  | nil =>
    cases h
    exact ⟨rfl, rfl⟩
  | cons w ws ih =>
    obtain ⟨hw, hreset⟩ := List.forall_mem_cons.1 hreset
    obtain ⟨u, hx, hws⟩ := writeCommands_cons h
    obtain ⟨v, hd, rfl⟩ := commandWrite_next hx
    have hfirst := commandWrite_headMoved_of_ne_reset hs hd hw w
    have hrest := ih (exec_keeps_inv hs rfl hx) hws hreset
    rw [(commandWrite_pulsesCounted hs.seekState hd w).seekState] at hrest
    rw [pulsesOf_cons]
    exact hfirst.trans (exec_params hx) hrest

/-- Settles O26: each write is a dispatched command, which counts for nothing but a `Reset`, and the row of R170 its word fires; the
records of the writes join to the record of the list. -/
theorem oneMoveAndOneInterruptPerPulse : Obligations.OneMoveAndOneInterruptPerPulse := by
  intro words s t hs h
  have hcount := writeCommands_pulsesCounted hs h
  refine ⟨hcount.raises, hcount.seekState, fun hreset => ?_⟩
  have hmoved := writeCommands_headMoved hs h hreset
  exact ⟨hmoved.cylinder, hmoved.seekComplete⟩

/-! ## The bound on the run (R164) and the table (R170) -/

/-- Two transitions end quiet: a third would need the step bit both set and released. -/
theorem seekClock_eq_none_of_two {s t u : State} (h : seekClock s = some t) (h' : seekClock t = some u) : seekClock u = none := by
  cases hs : s.seekState with
  | waitForStepSet =>
    rw [seekClock_set hs] at h
    split at h <;> cases h
    rename_i hb
    rw [seekClock_release rfl, if_pos hb] at h'
    cases h'
  | waitForStepRelease =>
    rw [seekClock_release hs] at h
    split at h <;> cases h
    rename_i hb
    rw [seekClock_seekComplete rfl] at h'
    cases h'
    exact (seekClock_set (afterAction_seekState _)).trans (if_neg hb)
  | seekComplete =>
    rw [seekClock_seekComplete hs] at h
    cases h
    rw [seekClock_set (afterAction_seekState s)] at h'
    split at h' <;> cases h'
    rename_i hb
    exact (seekClock_release rfl).trans (if_pos hb)

/-- A third round of the loop of R164 does nothing. -/
theorem seekRun_eq_seekLoop_two (s : State) : seekRun s = seekLoop 2 s := by
  cases h : seekClock s with
  | none => simp [seekRun, seekLoop, h]
  | some t =>
    cases h' : seekClock t with
    | none => simp [seekRun, seekLoop, h, h']
    | some u => simp [seekRun, seekLoop, h, h', seekClock_eq_none_of_two h h']

/-- Settles O21: a seek run ends quiet, its third round does nothing, and it rests in one of the other two states. -/
theorem seekRunEndsQuiet : Obligations.SeekRunEndsQuiet := fun s =>
  ⟨seekClock_seekRun s, seekRun_eq_seekLoop_two s, seekRun_seekState_ne s⟩

/-- Settles O20: the rows of R170, one lemma each. -/
theorem seekRunFollowsTheTable : Obligations.SeekRunFollowsTheTable := fun _ =>
  ⟨seekRun_set_idle, seekRun_set_step, seekRun_release_held, seekRun_release_step, seekRun_seekComplete⟩

/-! ## One word of a pulse (R161 to R165) -/

/-- Settles O22: the dispatched command leaves the seek state, and the seek run fires the second row of R170. -/
theorem stepSetArmsThePulse : Obligations.StepSetArmsThePulse := by
  intro w s hb hallowed hs
  obtain ⟨u, hd, hx⟩ := exec_of_allowed (i := .stepSet w) rfl ((matchesRow_stepSet w).trans hb) hallowed
  obtain ⟨-, -, hseek, -⟩ := dispatch_frame hd
  rw [seekRun_set_step (s := retain w u) (hseek.trans hs) hb] at hx
  exact ⟨_, hx, rfl, rfl, (dispatch_physicalCylinder hd :), (callCount_raise_dispatch hd :)⟩

/-- Settles O23: the dispatched command leaves the seek state, and the seek run fires the fourth row of R170, the action of R163. -/
theorem stepReleaseMovesOneCylinder : Obligations.StepReleaseMovesOneCylinder := by
  intro w s hinv hb hallowed hs
  obtain ⟨u, hd, hx⟩ := exec_of_allowed (i := .stepRelease w) rfl ((matchesRow_stepRelease w).trans (by rw [hb]; rfl)) hallowed
  obtain ⟨-, -, hseek, -⟩ := dispatch_frame hd
  have hmove := commandWrite_physicalCylinder hinv hd w
  rw [cylinderAfter_pulsesOf_singleton, if_pos ⟨hs, hb⟩] at hmove
  rw [seekRun_release_step (s := retain w u) (hseek.trans hs) hb] at hx hmove
  refine ⟨_, hx, rfl, rfl, rfl, ?_, hmove, congrArg StatusFields.trackZero (singleSeek_status (retain w u))⟩
  rw [callCount_raise_afterAction, ← callCount_raise_dispatch hd]
  rfl

/-- Settles O24: both views mean, by definition, the `writeCommand` of their word, whose one move is that of a released pulse. -/
theorem directionBitDecidesTheMove : Obligations.DirectionBitDecidesTheMove := by
  intro w s hinv hallowed
  obtain ⟨u, hd, hx⟩ := exec_of_allowed (i := .writeCommand w) rfl rfl hallowed
  have hmove := commandWrite_physicalCylinder hinv hd w
  rw [cylinderAfter_pulsesOf_singleton] at hmove
  exact ⟨fun hdir => ⟨_, hx, by simpa [hdir] using hmove⟩, fun hdir => ⟨_, hx, by simpa [hdir] using hmove⟩⟩

/-! ## The environment's move (R166, R167) -/

/-- Settles O25: the cylinder is the clamped sum, which each bound cuts on its own side. -/
theorem seekByClampsTheMove : Obligations.SeekByClampsTheMove := by
  intro delta s hcyl
  refine ⟨clampCylinder s.params (s.physicalCylinder + delta), rfl, ?_⟩
  generalize (s.physicalCylinder : Int) + delta = c
  unfold clampCylinder
  refine ⟨fun hlow => ?_, fun hhigh => ?_, fun hlow hhigh => ?_⟩
  · rw [if_pos hlow]
  · rw [if_neg (by omega), if_pos hhigh]
  · rw [if_neg (by omega), if_neg (by omega), Int.toNat_of_nonneg hlow]

end Sys2Proof.Machine

/-! # Block transfer: what a read stores, what a write commits, and what a transfer leaves alone -/

namespace Sys2Proof.Machine

/-! ## Buffers (R67) -/

theorem inBuffer_add (a : Addr) {n i : Nat} (hi : i < n) : InBuffer a n (a + BitVec.ofNat 32 i) := ⟨i, hi, rfl⟩

/-- A buffer that misses an address is shorter than the address space, so no two of its words share one. -/
theorem lt_of_not_inBuffer {a x : Addr} {n : Nat} (h : ¬ InBuffer a n x) : n < 2 ^ 32 := by
  by_contra hn
  exact h ⟨(x - a).toNat, by omega, by rw [BitVec.ofNat_toNat, BitVec.setWidth_eq, add_sub_cancel]⟩

theorem Memory.read_storeWords_of_not_inBuffer (m : Memory) {a x : Addr} {ws : List Word} (h : ¬ InBuffer a ws.length x) :
    (m.storeWords a ws).read x = m.read x :=
  m.read_storeWords_outside a x ws fun i hi hx => h ⟨i, hi, hx⟩

/-! ## What a read command stores (R181) -/

theorem Inv.storesInv {s : State} (h : Inv s) : StoresInv s := ⟨h.memory, h.disk, h.sectors⟩

section ReadTransfer
variable {s : State}

theorem StoresInv.length_header (h : StoresInv s) : (s.disk.get s.params (target s)).header.length = s.params.headerBytes :=
  ((Sector.fits_iff _ _).1 (Disk.get_fits h.sectors _)).1

theorem StoresInv.length_data (h : StoresInv s) : (s.disk.get s.params (target s)).data.length = s.params.dataBytes :=
  ((Sector.fits_iff _ _).1 (Disk.get_fits h.sectors _)).2

/-- The words of the target's header are as many as the header buffer has. -/
theorem StoresInv.length_headerWords (h : StoresInv s) :
    (wordsOfBytes (s.disk.get s.params (target s)).header).length = headerWords s.params := by
  rw [length_wordsOfBytes, h.length_header, headerWords]

/-- The words of the target's data are as many as the data buffer has. -/
theorem StoresInv.length_dataWords (h : StoresInv s) :
    (wordsOfBytes (s.disk.get s.params (target s)).data).length = dataWords s.params := by
  rw [length_wordsOfBytes, h.length_data, dataWords]

/-- The header is stored last, so its words stand whatever the data buffer is (R76). -/
theorem read_readTransferMemory_header (h : StoresInv s) {k : Nat} (hk : k < headerWords s.params)
    (hlast : headerWords s.params ≤ k + 2 ^ 32) :
    (readTransferMemory s).read (headerAddress s + BitVec.ofNat 32 k) =
      (wordsOfBytes (s.disk.get s.params (target s)).header).getD k 0 := by
  rw [← h.length_headerWords] at hk hlast
  exact Memory.read_storeWords_inside (Memory.storeWords_wf h.memory _ _) _ _ hlast hk

/-- A data word stands where the header buffer, stored after it, does not have its address. -/
theorem read_readTransferMemory_data (h : StoresInv s) {k : Nat} (hk : k < dataWords s.params)
    (hlast : dataWords s.params ≤ k + 2 ^ 32)
    (hheader : ¬ InBuffer (headerAddress s) (headerWords s.params) (dataAddress s + BitVec.ofNat 32 k)) :
    (readTransferMemory s).read (dataAddress s + BitVec.ofNat 32 k) =
      (wordsOfBytes (s.disk.get s.params (target s)).data).getD k 0 := by
  rw [← h.length_headerWords] at hheader
  rw [← h.length_dataWords] at hk hlast
  exact (Memory.read_storeWords_of_not_inBuffer _ hheader).trans (Memory.read_storeWords_inside h.memory _ _ hlast hk)

theorem read_readTransferMemory_outside (h : StoresInv s) {x : Addr}
    (hdata : ¬ InBuffer (dataAddress s) (dataWords s.params) x)
    (hheader : ¬ InBuffer (headerAddress s) (headerWords s.params) x) : (readTransferMemory s).read x = s.mem.read x := by
  rw [← h.length_headerWords] at hheader
  rw [← h.length_dataWords] at hdata
  exact (Memory.read_storeWords_of_not_inBuffer _ hheader).trans (Memory.read_storeWords_of_not_inBuffer _ hdata)

end ReadTransfer

/-- Settles O27: both commands are `ReadBlock`, whose memory is read in the header buffer, in the rest of the data buffer, and outside
both. -/
theorem readCommandsCopyTheSectorToMemory : Obligations.ReadCommandsCopyTheSectorToMemory := by
  intro w s hs hallowed
  have hstores := hs.storesInv
  have hexec := congrArg (commandWrite · w) (readBlock_of_allowed hallowed)
  refine ⟨readTransferMemory s, hexec, hexec, fun k hk hlast => ?_, fun k hk hlast hheader => ?_,
    fun x hheader hdata => read_readTransferMemory_outside hstores hdata hheader⟩
  · rw [read_readTransferMemory_header hstores hk hlast, wordsOfBytes_getD _ (by rwa [hstores.length_header])]
  · rw [read_readTransferMemory_data hstores hk hlast hheader, wordsOfBytes_getD _ (by rwa [hstores.length_data])]

/-! ## What a write command commits (R182) -/

theorem loadWords_bytes_getD (m : Memory) (a : Addr) {n j : Nat} (hj : j < n) :
    (bytesOfWords (m.loadWords a n)).getD (2 * j) 0 = (m.read (a + BitVec.ofNat 32 j)).extractLsb' 0 8 ∧
      (bytesOfWords (m.loadWords a n)).getD (2 * j + 1) 0 = (m.read (a + BitVec.ofNat 32 j)).extractLsb' 8 8 := by
  rw [← m.loadWords_getD a hj]
  exact bytesOfWords_getD _ (by rwa [m.length_loadWords])

/-- The disk after a write command holds the committed sector at the target. -/
theorem get_writeTransfer_target {s : State} (h : StoresInv s) (writeHeader : Bool) :
    (s.disk.set s.params (target s) (writeTransferSector writeHeader s)).get s.params (target s) =
      writeTransferSector writeHeader s :=
  Disk.get_set_same h.disk _ _

theorem length_writeTransferSector {s : State} (hs : Inv s) (writeHeader : Bool) :
    (writeTransferSector writeHeader s).header.length = s.params.headerBytes ∧
      (writeTransferSector writeHeader s).data.length = s.params.dataBytes :=
  (Sector.fits_iff _ _).1 (writeTransferSector_fits hs.params hs.sectors writeHeader)

/-- Settles O28: the committed sector has the words of the data buffer and the header that was on disk. -/
theorem writeChkKeepsTheHeader : Obligations.WriteChkKeepsTheHeader := by
  intro w s hs hallowed
  have hexec := congrArg (commandWrite · w) (writeBlock_of_allowed (writeHeader := false) hallowed nofun)
  obtain ⟨-, hdata⟩ := length_writeTransferSector hs false
  refine ⟨_, hexec, ?_⟩
  rw [get_writeTransfer_target hs.storesInv]
  exact ⟨rfl, hdata, fun j => loadWords_bytes_getD s.mem (dataAddress s), fun a => Disk.get_set_other _ _ _⟩

/-- Settles O29: both commands are `WriteBlock` with the header, which commits the words of both buffers. -/
theorem writeFirstAndFormatWriteTheHeader : Obligations.WriteFirstAndFormatWriteTheHeader := by
  intro w s hs ⟨htarget, hdataMapped, hheaderMapped⟩
  have hexec := congrArg (commandWrite · w)
    (writeBlock_of_allowed (writeHeader := true) ⟨htarget, hdataMapped⟩ fun _ => hheaderMapped)
  obtain ⟨hheader, hdata⟩ := length_writeTransferSector hs true
  refine ⟨_, hexec, hexec, ?_⟩
  rw [get_writeTransfer_target hs.storesInv]
  exact ⟨hheader, hdata, fun j => loadWords_bytes_getD s.mem (headerAddress s),
    fun j => loadWords_bytes_getD s.mem (dataAddress s), fun a => Disk.get_set_other _ _ _⟩

/-! ## A write and then a read (R188(b)) -/

theorem wordsOfBytes_writeTransferSector_data (writeHeader : Bool) (s : State) :
    wordsOfBytes (writeTransferSector writeHeader s).data = s.mem.loadWords (dataAddress s) (dataWords s.params) :=
  wordsOfBytes_bytesOfWords _

theorem wordsOfBytes_writeTransferSector_header (s : State) :
    wordsOfBytes (writeTransferSector true s).header = s.mem.loadWords (headerAddress s) (headerWords s.params) :=
  wordsOfBytes_bytesOfWords _

theorem target_congr {s t : State} (h : t.regs = s.regs) : target t = target s := by
  simp only [target, h]

/-- What `WriteFirst` leaves in the elements that a later transfer reads. -/
theorem exec_writeFirst_next {w : Word} {s t : State} (h : exec (.writeFirst w) s = .next t) :
    t.params = s.params ∧ target t = target s ∧ t.mem = s.mem ∧
      t.disk = s.disk.set s.params (target s) (writeTransferSector true s) := by
  obtain ⟨u, hu, rfl⟩ := commandWrite_next h
  obtain ⟨-, -, rfl⟩ := writeBlock_next hu
  exact ⟨by simp, target_congr (by simp), by simp, by simp⟩

theorem exec_readChk_mem {w : Word} {s t : State} (h : exec (.readChk w) s = .next t) : t.mem = readTransferMemory s := by
  obtain ⟨u, hu, rfl⟩ := commandWrite_next h
  obtain ⟨-, rfl⟩ := readBlock_next hu
  simp

/-- Settles O30: the sector read is the one committed, whose words are those of the old buffers. The new buffers miss an address, so
they are shorter than the address space and hold every word; the read leaves the old ones alone. -/
theorem writeThenReadRoundTrips : Obligations.WriteThenReadRoundTrips := by
  intro w w' s t u v hs hwrite hmem hdisk hparams htarget hdata hheader hread
  have hstores : StoresInv u := by
    have ht := exec_keeps_storesInv hwrite hs.params hs.storesInv
    rwa [StoresInv, ← hparams, ← hmem, ← hdisk] at ht
  obtain ⟨htparams, httarget, htmem, htdisk⟩ := exec_writeFirst_next hwrite
  rw [htparams] at hparams
  rw [htmem] at hmem
  have hsector : u.disk.get u.params (target u) = writeTransferSector true s := by
    rw [hdisk, hparams, htarget, htdisk, httarget, get_writeTransfer_target hs.storesInv]
  have hdataWords := wordsOfBytes_writeTransferSector_data true s
  have hheaderWords := wordsOfBytes_writeTransferSector_header s
  rw [← hsector, ← hparams] at hdataWords hheaderWords
  rw [← hparams] at hdata hheader ⊢
  rw [exec_readChk_mem hread]
  refine ⟨fun k hk => ?_, fun k hk => ?_⟩
  · have hold := inBuffer_add (dataAddress s) hk
    obtain ⟨hnotHeader, hnotOld, -⟩ := hdata _ (inBuffer_add (dataAddress u) hk)
    have hshort := lt_of_not_inBuffer hnotOld
    rw [read_readTransferMemory_outside hstores (fun hx => (hdata _ hx).2.1 hold) (fun hx => (hheader _ hx).1 hold), hmem,
      read_readTransferMemory_data hstores hk (by omega) hnotHeader, hdataWords, Memory.loadWords_getD _ _ hk]
    exact ⟨rfl, rfl⟩
  · have hold := inBuffer_add (headerAddress s) hk
    obtain ⟨-, hnotOld⟩ := hheader _ (inBuffer_add (headerAddress u) hk)
    have hshort := lt_of_not_inBuffer hnotOld
    rw [read_readTransferMemory_outside hstores (fun hx => (hdata _ hx).2.2 hold) (fun hx => (hheader _ hx).2 hold), hmem,
      read_readTransferMemory_header hstores hk (by omega), hheaderWords, Memory.loadWords_getD _ _ hk]
    exact ⟨rfl, rfl⟩

/-! ## What a transfer leaves alone (R185, R188(c)) -/

/-- Settles O36: while Busy no command but `Reset` arms a completion, and the seek run leaves the timing part. -/
theorem busyIsIdempotent : Obligations.BusyIsIdempotent := by
  intro i w s t hw hi hreset hbusy h
  obtain ⟨u, hd, rfl⟩ := exec_commandOf_next hw hi h
  have htiming : timing (seekRun (retain w u)) = timing s := by
    rw [timing_seekRun_retain]
    rcases dispatch_timing hd with hu | ⟨hdone, -⟩ | ⟨hc, -⟩
    · exact hu
    · exact nomatch hbusy.symm.trans hdone
    · exact absurd hc hreset
  exact ⟨congrArg Timing.pending htiming, (congrArg Timing.controllerStatus htiming).trans hbusy,
    congrArg Timing.index htiming⟩

/-- Everything a dispatched command can do to the stores: nothing, a read into memory, or one sector written at the target. -/
theorem dispatch_stores {c : Command} {s t : State} (h : dispatch c s = .next t) :
    (t.mem = s.mem ∨ t.mem = readTransferMemory s) ∧
      (t.disk = s.disk ∨ ∃ sec, t.disk = s.disk.set s.params (target s) sec) := by
  rcases dispatch_cases h with ⟨-, rfl⟩ | ⟨-, -, rfl⟩ | ⟨-, -, rfl⟩ | ⟨-, -, rfl⟩ | ⟨-, rfl⟩ | ⟨-, rfl⟩
  · exact ⟨.inl rfl, .inl rfl⟩
  · exact ⟨.inr (by simp), .inl (by simp)⟩
  · exact ⟨.inl (by simp), .inr ⟨_, enterBusy_disk _⟩⟩
  · exact ⟨.inl (by simp), .inr ⟨_, enterBusy_disk _⟩⟩
  · exact ⟨.inl rfl, .inl rfl⟩
  · exact ⟨.inl (by simp), .inl (by simp)⟩

/-- An instruction does to the stores what the command it dispatches does, and nothing where it dispatches none. -/
theorem exec_stores {i : Instr} {s t : State} (h : exec i s = .next t) :
    (t.mem = s.mem ∨ t.mem = readTransferMemory s) ∧
      (t.disk = s.disk ∨ ∃ sec, t.disk = s.disk.set s.params (target s) sec) := by
  cases hw : commandWord i with
  | some w =>
    obtain ⟨c, u, hd, rfl⟩ := exec_command_next hw h
    simpa using dispatch_stores hd
  | none =>
    rcases exec_other hw h with ⟨_, _, rfl, -⟩ | ⟨-, rfl⟩ | ⟨-, rfl⟩ | ⟨-, rfl⟩ | ⟨-, rfl⟩ | ⟨-, rfl⟩ | ⟨_, -, rfl⟩ <;>
      exact ⟨.inl rfl, .inl rfl⟩

/-- Settles O49: a read stores inside the two buffers, and a write sets the target alone. -/
theorem transfersStayInTheirBuffers : Obligations.TransfersStayInTheirBuffers := by
  intro i s t hs h
  obtain ⟨hmem, hdisk⟩ := exec_stores h
  refine ⟨fun x hdata hheader => ?_, fun a ha => ?_⟩
  · rcases hmem with hmem | hmem
    · rw [hmem]
    · rw [hmem, read_readTransferMemory_outside hs.storesInv hdata hheader]
  · rw [exec_params h]
    rcases hdisk with hdisk | ⟨sec, hdisk⟩
    · rw [hdisk]
    · rw [hdisk, Disk.get_set_other _ _ _ ha]

end Sys2Proof.Machine

/-! # Events: entering Busy, the handlers, the step that delivers one, the passing of time, and the index cycle -/

namespace Sys2Proof.Machine

/-! ## Entering Busy and the handlers (R200, R203 to R205) -/

/-- Settles O33: the model's two equations of entering Busy, one for each value of the status field. -/
theorem enterBusyArmsOneCompletion : Obligations.EnterBusyArmsOneCompletion :=
  fun s => ⟨enterBusy_of_busy s, enterBusy_of_done s⟩

/-- Settles O34: each handler is one update of the state. -/
theorem eventHandlersDoTheirRule : Obligations.EventHandlersDoTheirRule := fun _ => ⟨rfl, rfl, rfl⟩

/-- The state after the handler of an event (R202). -/
def handled : EventKind → State → State
  | .busyDone, s => irqRaise { s with status := { s.status with controllerStatus := .done } }
  | .indexStart, s => schedule Config.indexPulseNs .indexEnd { s with status := { s.status with index := true } }
  | .indexEnd, s => schedule Config.rotationNs .indexStart { s with status := { s.status with index := false } }

/-- No handler ever stops the machine. -/
theorem exec_eventInstr (k : EventKind) (s : State) : exec (eventInstr k) s = .next (handled k s) := by
  cases k <;> rfl

theorem handled_comm_busyDone (k : EventKind) (s : State) : handled k (handled .busyDone s) = handled .busyDone (handled k s) := by
  cases k <;> rfl

/-- Settles O35: a completion writes the status field and the line, an index handler `index` and `pending`, and neither reads what the
other writes. -/
theorem handlersCommute : Obligations.HandlersCommute := by
  intro a b s t u hone ha hb
  have hcomm : handled a (handled b s) = handled b (handled a s) := by
    by_cases hka : a = .busyDone
    · rw [hka, handled_comm_busyDone b s]
    · have hkb : b = .busyDone := by_contra fun hkb => hone ⟨hka, hkb⟩
      rw [hkb, handled_comm_busyDone a s]
  rw [exec_eventInstr] at ha
  cases ha
  rw [exec_eventInstr, ← hcomm] at hb
  exact ⟨handled b s, exec_eventInstr b s, (exec_eventInstr a _).trans hb⟩

/-! ## The step that delivers an event (R206, R208) -/

section Deliver
variable {s u : State} {k : EventKind}

theorem step_of_takeDue (h : takeDue s = some (k, u)) : step s = exec (eventInstr k) u := by
  simp only [step, h]

theorem nextInstr_of_takeDue (h : takeDue s = some (k, u)) : nextInstr s = some (eventInstr k) := by
  simp only [nextInstr, h]

/-- Where time has passed no pending event, the event delivered is due exactly now (R206). -/
theorem takeDue_of_queueOk (hq : QueueOk s.now s.pending) (h : takeDue s = some (k, u)) :
    ∃ others n, ((⟨s.now, k⟩ : Event) :: others).Perm s.pending ∧ u = { s with pending := others, tieCount := n } := by
  obtain ⟨⟨due, kind⟩, first, rest, others, n, hp, hfirst, hdue, rfl, -, hperm, hu⟩ := takeDue_eq_some h
  have hnot : s.now ≤ first.due := hq.notLate first (by simp [hp])
  obtain rfl : due = s.now := hdue.trans (Nat.le_antisymm hfirst hnot)
  exact ⟨others, n, hperm, hu⟩

end Deliver

/-- What a handler adds to `pending` lies ahead of now (R204, R205). -/
theorem mem_pending_handled {k : EventKind} {s : State} {f : Event} (h : f ∈ (handled k s).pending) :
    f ∈ s.pending ∨ s.now < f.due := by
  cases k with
  | busyDone => exact .inl h
  | indexStart =>
    rcases mem_insertEvent.1 h with rfl | h
    · exact .inr (Nat.lt_add_of_pos_right (by decide))
    · exact .inl h
  | indexEnd =>
    rcases mem_insertEvent.1 h with rfl | h
    · exact .inr (Nat.lt_add_of_pos_right (by decide))
    · exact .inl h

/-- Settles O5: the event taken is due now, so no pending one is due earlier, and its handler completes. -/
theorem stepDeliversADueEvent : Obligations.StepDeliversADueEvent := by
  intro s hs hdue
  obtain ⟨⟨k, u⟩, hk⟩ := Option.ne_none_iff_exists'.1 (takeDue_ne_none hs.sorted hdue)
  obtain ⟨others, n, hperm, rfl⟩ := takeDue_of_queueOk hs.queueOk hk
  have hstep := step_of_takeDue hk
  have hexec := exec_eventInstr k { s with pending := others, tieCount := n }
  obtain ⟨-, hnow, hinput, -⟩ := exec_frame hexec
  exact ⟨⟨s.now, k⟩, others, n, _, hperm, rfl, hs.notLate, hstep, hstep.trans hexec, hnow, hinput, fun _ => mem_pending_handled⟩

/-! ## The steps that run no instruction (R207, R212) -/

section NothingDue
variable {s : State} {rest : List Input}

theorem step_of_advance {a : Nat} (hdue : takeDue s = none) (hin : s.input = .advance a :: rest) :
    step s = .next (advanceTime a rest s) := by
  simp only [step, hdue, hin]

theorem step_of_memStore {a : Addr} {w : Word} (hdue : takeDue s = none) (hin : s.input = .memStore a w :: rest) :
    step s = .next (externalStore a w rest s) := by
  simp only [step, hdue, hin]

theorem step_of_no_input {first : Event} {others : List Event} (hdue : takeDue s = none) (hin : s.input = [])
    (hp : s.pending = first :: others) : step s = .next { s with now := first.due } := by
  simp only [step, hdue, hin, advanceToNextEvent, hp]

/-- The input `advance a`, with `a` ahead of now: time goes to `a` where the first pending event is not due before it (log 11). -/
theorem advanceTime_of_ahead {a : Nat} {first : Event} {others : List Event} (ha : s.now < a) (hp : s.pending = first :: others) :
    advanceTime a rest s = if first.due < a then { s with now := first.due } else { s with now := a, input := rest } := by
  simp only [advanceTime, Nat.not_le.2 ha, if_false, hp]

end NothingDue

/-- An index event is always pending (R47). -/
theorem Inv.exists_first {s : State} (h : Inv s) : ∃ first others, s.pending = first :: others := by
  have hone := h.oneIndexEvent
  cases hp : s.pending with
  | nil => simp [hp] at hone
  | cons first others => exact ⟨first, others, rfl⟩

/-- Settles O6: the first pending event has the least due time, so the comparison with it decides. -/
theorem stepAdvancesTime : Obligations.StepAdvancesTime := by
  intro s a rest hs hpending hin ha
  obtain ⟨first, others, hp⟩ := hs.exists_first
  have hmem : first ∈ s.pending := by simp [hp]
  have hleast : ∀ e ∈ s.pending, first.due ≤ e.due := by
    have hq := hs.queueOk
    rw [hp] at hq ⊢
    exact hq.first_due_le
  rw [step_of_advance (takeDue_eq_none hpending) hin, advanceTime_of_ahead ha hp]
  refine ⟨fun hlate => ?_, fun ⟨e, he, hbefore⟩ => ?_⟩
  · rw [if_neg (Nat.not_lt.2 (hlate first hmem))]
  · have hfirst : first.due < a := Nat.lt_of_le_of_lt (hleast e he) hbefore
    exact ⟨first, hmem, hfirst, hleast, by rw [if_pos hfirst]⟩

/-- Settles O7: a due event is delivered, `advance` and `memStore` always complete, and with no input time runs to the pending index
event. -/
theorem neverQuiescent : Obligations.NeverQuiescent := by
  intro s hs haccess
  cases hdue : takeDue s with
  | some delivery => exact ⟨_, (step_of_takeDue hdue).trans (exec_eventInstr _ _)⟩
  | none =>
    match hin : s.input with
    | [] =>
      obtain ⟨first, others, hp⟩ := hs.exists_first
      exact ⟨_, step_of_no_input hdue hin hp⟩
    | .advance _ :: _ => exact ⟨_, step_of_advance hdue hin⟩
    | .memStore _ _ :: _ => exact ⟨_, step_of_memStore hdue hin⟩
    | .access words :: rest => exact absurd hin (haccess words rest)

/-! ## A `Reset` while Busy (R210) -/

theorem exec_cmdReset_timing {w : Word} {s t : State} (h : exec (.cmdReset w) s = .next t) : timing t = armedTiming s false := by
  cases h
  exact timing_seekRun_retain w _

/-- Settles O38: the reset ends Busy and enters it again, which arms a completion beside the one that Busy promised. -/
theorem resetWhileBusyLeavesAStaleCompletion : Obligations.ResetWhileBusyLeavesAStaleCompletion := by
  intro w s t hs hbusy h
  have htiming := exec_cmdReset_timing h
  have hpending : t.pending = insertEvent ⟨s.now + Config.busyNs, .busyDone⟩ s.pending := congrArg Timing.pending htiming
  obtain ⟨old, hold, hkind⟩ := hs.busyEnds hbusy
  have hcount : completionsPending t = completionsPending s + 1 := by
    simp [completionsPending, hpending, length_filter_insertEvent]
  have hpos : 0 < completionsPending s :=
    List.length_pos_of_mem (List.mem_filter.2 ⟨hold, (isCompletion_iff old).2 hkind⟩)
  exact ⟨⟨old, hpending ▸ mem_insertEvent.2 (.inr hold), hold, hkind⟩, hcount, by omega, congrArg Timing.controllerStatus htiming⟩

/-! ## The index cycle, step by step (R211, R234) -/

/-- An event is on time: a start at some `k * P`, an end 1,100 ns later, or a completion at any time. -/
def Event.OnCycle (e : Event) : Prop :=
  (e.kind = .indexStart → ∃ k : Nat, e.due = k * indexCycle) ∧
    (e.kind = .indexEnd → ∃ k : Nat, e.due = k * indexCycle + Config.indexPulseNs)

theorem onIndexCycle_iff (s : State) : OnIndexCycle s ↔ ∀ e ∈ s.pending, e.OnCycle := Iff.rfl

theorem Event.onCycle_busyDone (due : Nat) : OnCycle ⟨due, .busyDone⟩ := ⟨nofun, nofun⟩

theorem Event.onCycle_indexStart {due : Nat} : OnCycle ⟨due, .indexStart⟩ ↔ ∃ k : Nat, due = k * indexCycle :=
  ⟨fun h => h.1 rfl, fun h => ⟨fun _ => h, nofun⟩⟩

theorem Event.onCycle_indexEnd {due : Nat} : OnCycle ⟨due, .indexEnd⟩ ↔ ∃ k : Nat, due = k * indexCycle + Config.indexPulseNs :=
  ⟨fun h => h.2 rfl, fun h => ⟨nofun, fun _ => h⟩⟩

/-- The end that the start of a pulse schedules (R204). -/
theorem Event.OnCycle.pulse {due : Nat} (h : OnCycle ⟨due, .indexStart⟩) : OnCycle ⟨due + Config.indexPulseNs, .indexEnd⟩ := by
  obtain ⟨k, rfl⟩ := onCycle_indexStart.1 h
  exact onCycle_indexEnd.2 ⟨k, rfl⟩

/-- A pulse and the rotation after it are one cycle. -/
theorem pulse_add_rotation (k : Nat) : k * indexCycle + Config.indexPulseNs + Config.rotationNs = (k + 1) * indexCycle := by
  rw [Nat.succ_mul, Nat.add_assoc]
  rfl

/-- The start that the end of a pulse schedules (R205). -/
theorem Event.OnCycle.rotation {due : Nat} (h : OnCycle ⟨due, .indexEnd⟩) : OnCycle ⟨due + Config.rotationNs, .indexStart⟩ := by
  obtain ⟨k, rfl⟩ := onCycle_indexEnd.1 h
  exact onCycle_indexStart.2 ⟨k + 1, pulse_add_rotation k⟩

theorem forall_mem_insertEvent {P : Event → Prop} {e : Event} {l : List Event} (he : P e) (hl : ∀ f ∈ l, P f) :
    ∀ f ∈ insertEvent e l, P f := by
  intro f hf
  rcases mem_insertEvent.1 hf with rfl | hf
  · exact he
  · exact hl f hf

/-- Settles O51: the end of the first pulse is on time in the cycle 0, and nothing else is pending. -/
theorem constructionStartsTheCycles : Obligations.ConstructionStartsTheCycles := by
  refine fun p r image m => ⟨fun e he => ?_, Nat.zero_le _⟩
  obtain rfl := List.mem_singleton.1 he
  exact Event.onCycle_indexEnd.2 ⟨0, (Nat.zero_mul _ ▸ Nat.zero_add _).symm⟩

/-- Everything a step can do to the timing part: a delivery, an access, or nothing. -/
theorem step_cases_timing {s t : State} (h : step s = .next t) :
    (∃ k u, takeDue s = some (k, u) ∧ exec (eventInstr k) u = .next t) ∨
    (∃ rest i, nextInstr s = some i ∧ eventKindOf i = none ∧ i.wf = true ∧ exec i { s with input := rest } = .next t) ∨
    timing t = timing s := by
  rcases step_cases h with hx | ⟨hdue, words, rest, i, hin, hi, hx⟩ | ⟨-, a, rest, -, rfl⟩ | ⟨-, a, w, rest, -, rfl⟩ |
    ⟨-, -, e, rest, -, rfl⟩
  · exact .inl hx
  · obtain ⟨hdecode, hk⟩ := fetchAccess_ok hi
    exact .inr (.inl ⟨rest, i, nextInstr_of_access hdue hin hi, hk, decode_wf hdecode, hx⟩)
  · exact .inr (.inr (timing_advanceTime a rest s))
  · exact .inr (.inr rfl)
  · exact .inr (.inr rfl)

section Access
variable {i : Instr} {s t : State}

/-- An access adds no index event. -/
theorem exec_keeps_onIndexCycle (hs : OnIndexCycle s) (hk : eventKindOf i = none) (h : exec i s = .next t) : OnIndexCycle t := by
  have harmed : ∀ x, timing t = armedTiming s x → OnIndexCycle t := by
    intro x ht
    rw [onIndexCycle_iff, show t.pending = _ from congrArg Timing.pending ht]
    exact forall_mem_insertEvent (Event.onCycle_busyDone _) hs
  have hsame : t.pending = s.pending → OnIndexCycle t := by
    intro hp
    rwa [onIndexCycle_iff, hp]
  rcases exec_timing hk h with ht | ⟨-, ht⟩ | ⟨-, ht⟩ | ⟨-, ht⟩
  · exact hsame (congrArg Timing.pending ht)
  · exact harmed _ ht
  · exact harmed _ ht
  · exact hsame (congrArg Timing.pending ht)

/-- An access writes `index` only in a reset, which clears it (D23). -/
theorem exec_index (hk : eventKindOf i = none) (hwf : i.wf = true) (h : exec i s = .next t) :
    t.status.index = s.status.index ∨ isReset i = true ∧ t.status.index = false := by
  rcases exec_timing hk h with ht | ⟨-, ht⟩ | ⟨hreset, ht⟩ | ⟨hreset, ht⟩
  · exact .inl (congrArg Timing.index ht)
  · exact .inl (congrArg Timing.index ht)
  · exact .inr ⟨hreset hwf, congrArg Timing.index ht⟩
  · exact .inr ⟨hreset, congrArg Timing.index ht⟩

end Access

/-- A handler whose own event was on time keeps the others on time and schedules the next one so. -/
theorem handled_onIndexCycle {k : EventKind} {u : State} (he : Event.OnCycle ⟨u.now, k⟩) (hu : OnIndexCycle u) :
    OnIndexCycle (handled k u) := by
  cases k with
  | busyDone => exact hu
  | indexStart => exact forall_mem_insertEvent he.pulse hu
  | indexEnd => exact forall_mem_insertEvent he.rotation hu

/-- Settles O50: the event delivered is due now and was on time, so what its handler schedules is; accesses add completions only, and no
other step touches the timing part. -/
theorem everyStepKeepsTheIndexCycle : Obligations.EveryStepKeepsTheIndexCycle := by
  intro s t hs hcycle h
  rcases step_cases_timing h with ⟨k, u, hk, hx⟩ | ⟨rest, i, hi, hk, hwf, hx⟩ | ht
  · have hnext := nextInstr_of_takeDue hk
    obtain ⟨others, n, hperm, rfl⟩ := takeDue_of_queueOk hs.queueOk hk
    rw [exec_eventInstr] at hx
    cases hx
    have hmem : (⟨s.now, k⟩ : Event) ∈ s.pending := hperm.subset (List.mem_cons_self ..)
    have he : Event.OnCycle ⟨s.now, k⟩ := hcycle _ hmem
    refine ⟨handled_onIndexCycle he fun f hf => hcycle f (hperm.subset (List.mem_cons_of_mem _ hf)), ?_⟩
    cases k with
    | busyDone => exact .inl rfl
    | indexStart => exact .inr (.inr (.inl ⟨hnext, rfl, Event.onCycle_indexStart.1 he, hmem⟩))
    | indexEnd => exact .inr (.inr (.inr ⟨hnext, rfl, Event.onCycle_indexEnd.1 he, hmem⟩))
  · have hreset : nextIsReset s = isReset i := by rw [nextIsReset, hi]
    rw [hreset]
    exact ⟨exec_keeps_onIndexCycle (s := { s with input := rest }) hcycle hk hx,
      (exec_index hk hwf hx).imp_right .inl⟩
  · have hpending : t.pending = s.pending := congrArg Timing.pending ht
    exact ⟨by rwa [onIndexCycle_iff, hpending], .inl (congrArg Timing.index ht)⟩

/-! ## The silent machine (R211) -/

/-- The machine `s` at another time, with another `index` and one event pending. -/
def withTiming (s : State) (now : Nat) (index : Bool) (e : Event) : State :=
  { s with now := now, status := { s.status with index := index }, pending := [e] }

/-- A single pending event that is due is taken, with no free choice. -/
theorem takeDue_withTiming (s : State) (now : Nat) (x : Bool) (k : EventKind) :
    takeDue (withTiming s now x ⟨now, k⟩) = some (k, { withTiming s now x ⟨now, k⟩ with pending := [] }) := by
  simp [takeDue, withTiming, tiesAt, tieChoice]

theorem step_indexStart_withTiming (s : State) (now : Nat) (x : Bool) :
    step (withTiming s now x ⟨now, .indexStart⟩) = .next (withTiming s now true ⟨now + Config.indexPulseNs, .indexEnd⟩) :=
  (step_of_takeDue (takeDue_withTiming ..)).trans (exec_eventInstr ..)

theorem step_indexEnd_withTiming (s : State) (now : Nat) (x : Bool) :
    step (withTiming s now x ⟨now, .indexEnd⟩) = .next (withTiming s now false ⟨now + Config.rotationNs, .indexStart⟩) :=
  (step_of_takeDue (takeDue_withTiming ..)).trans (exec_eventInstr ..)

section Silent
variable {s : State} (hin : s.input = [])

include hin in
/-- With no input, time runs to the one event pending. -/
theorem step_wait_withTiming {now : Nat} {e : Event} (h : now < e.due) (x : Bool) :
    step (withTiming s now x e) = .next (withTiming s e.due x e) :=
  step_of_no_input (takeDue_eq_none (List.forall_mem_singleton.2 h)) hin rfl

theorem run_snoc {n : Nat} {s t u : State} (h : Host.Core.run core n s = .next t) (ht : step t = .next u) :
    Host.Core.run core (n + 1) s = .next u :=
  (run_then 1 h).trans (run_step ht 0)

/-- The first of the four corners of the `k`-th cycle: `index` has risen. -/
def pulseBegins (s : State) (k : Nat) : State :=
  withTiming s (k * indexCycle) true ⟨k * indexCycle + Config.indexPulseNs, .indexEnd⟩

/-- The second corner: the end of the pulse is due. -/
def pulseEndDue (s : State) (k : Nat) : State :=
  withTiming s (k * indexCycle + Config.indexPulseNs) true ⟨k * indexCycle + Config.indexPulseNs, .indexEnd⟩

/-- The third corner: `index` has fallen. -/
def rotationBegins (s : State) (k : Nat) : State :=
  withTiming s (k * indexCycle + Config.indexPulseNs) false ⟨(k + 1) * indexCycle, .indexStart⟩

/-- The fourth corner: the start of the next pulse is due. -/
def pulseStartDue (s : State) (k : Nat) : State :=
  withTiming s ((k + 1) * indexCycle) false ⟨(k + 1) * indexCycle, .indexStart⟩

include hin in
theorem step_pulseBegins (k : Nat) : step (pulseBegins s k) = .next (pulseEndDue s k) :=
  step_wait_withTiming hin (Nat.lt_add_of_pos_right (by decide)) true

theorem step_pulseEndDue (s : State) (k : Nat) : step (pulseEndDue s k) = .next (rotationBegins s k) := by
  rw [pulseEndDue, step_indexEnd_withTiming, pulse_add_rotation, rotationBegins]

include hin in
theorem step_rotationBegins (k : Nat) : step (rotationBegins s k) = .next (pulseStartDue s k) := by
  refine step_wait_withTiming hin ?_ false
  rw [← pulse_add_rotation]
  exact Nat.lt_add_of_pos_right (by decide)

theorem step_pulseStartDue (s : State) (k : Nat) : step (pulseStartDue s k) = .next (pulseBegins s (k + 1)) :=
  step_indexStart_withTiming s _ false

include hin in
/-- Four steps from the beginning of a pulse to the next, by induction on the cycle. -/
theorem run_pulseBegins (k : Nat) : Host.Core.run core (4 * k) (pulseBegins s 0) = .next (pulseBegins s k) := by
  induction k with
  | zero => rfl
  | succ k ih =>
    exact run_snoc (run_snoc (run_snoc (run_snoc ih (step_pulseBegins hin k)) (step_pulseEndDue s k)) (step_rotationBegins hin k))
      (step_pulseStartDue s k)

end Silent

/-- Settles O39: construction is the beginning of the pulse of cycle 0, and each cycle goes through its four corners. -/
theorem indexPulseIsPeriodic : Obligations.IndexPulseIsPeriodic := by
  intro p r image m k s high low
  have hin : s.input = [] := rfl
  have hbegins : Host.Core.run core (4 * k) s = .next (pulseBegins s k) := run_pulseBegins hin k
  have hendDue := run_snoc hbegins (step_pulseBegins hin k)
  have hrotation := run_snoc hendDue (step_pulseEndDue s k)
  have hstartDue := run_snoc hrotation (step_rotationBegins hin k)
  exact ⟨hbegins, hendDue, hrotation, hstartDue⟩

end Sys2Proof.Machine

/-! # Exceptions: the calls on the interrupt line, and the level they leave -/

namespace Sys2Proof.Machine

/-! ## The line under a list of calls (R227) -/

/-- The level that calls leave on a line at `line`: the last call's, or `line` where there is none. -/
def lineAfter (line : Bool) (calls : List IrqCall) : Bool :=
  match calls.getLast? with
  | some .raise => true
  | some .clear => false
  | none => line

theorem lineAfter_append (line : Bool) (calls calls' : List IrqCall) :
    lineAfter line (calls ++ calls') = lineAfter (lineAfter line calls) calls' := by
  rcases hlast : calls'.getLast? with _ | _ | _ <;> simp [lineAfter, List.getLast?_append, hlast]

/-- From `s` to `t` exactly these calls are made on the interrupt line, at the time of `s`. -/
structure MakesCalls (s : State) (calls : List IrqCall) (t : State) : Prop where
  trace : t.irqTrace = s.irqTrace ++ calls.map (fun c => (s.now, c))
  line : t.irqLine = lineAfter s.irqLine calls

section Calls
variable {s t u : State} {calls calls' : List IrqCall}

theorem MakesCalls.trans (h : MakesCalls s calls u) (hnow : u.now = s.now) (h' : MakesCalls u calls' t) :
    MakesCalls s (calls ++ calls') t :=
  ⟨by simp [h'.trace, h.trace, hnow], by rw [h'.line, h.line, lineAfter_append]⟩

theorem makesCalls_nil (htrace : t.irqTrace = s.irqTrace) (hline : t.irqLine = s.irqLine) : MakesCalls s [] t :=
  ⟨by simp [htrace], hline⟩

theorem makesCalls_raise (htrace : t.irqTrace = s.irqTrace ++ [(s.now, .raise)]) (hline : t.irqLine = true) :
    MakesCalls s [.raise] t := ⟨htrace, hline⟩

theorem makesCalls_clear (htrace : t.irqTrace = s.irqTrace ++ [(s.now, .clear)]) (hline : t.irqLine = false) :
    MakesCalls s [.clear] t := ⟨htrace, hline⟩

/-! ## The calls of a command (R224) -/

/-- The calls of a dispatched command: `Idle` clears the line. -/
def dispatchCalls (c : Command) : List IrqCall := if c = .idle then [.clear] else []

@[simp] theorem raise_notMem_dispatchCalls (c : Command) : .raise ∉ dispatchCalls c := by
  cases c <;> decide

@[simp] theorem clear_mem_dispatchCalls (c : Command) : .clear ∈ dispatchCalls c ↔ c = .idle := by
  cases c <;> decide

theorem dispatch_makesCalls {c : Command} (h : dispatch c s = .next t) : MakesCalls s (dispatchCalls c) t := by
  rcases dispatch_irq h with ⟨hc, htrace, hline⟩ | ⟨hc, htrace, hline⟩
  · rw [dispatchCalls, if_pos hc]
    exact makesCalls_clear htrace hline
  · rw [dispatchCalls, if_neg hc]
    exact makesCalls_nil htrace hline

/-! ## The calls of a seek run (R163, R164) -/

/-- The calls of a seek run with the retained word `w`: a raise where it passes through `SeekComplete`. -/
def seekCalls (st : SeekState) (w : Word) : List IrqCall :=
  match st with
  | .waitForStepSet => []
  | .waitForStepRelease => if stepBit w then [] else [.raise]
  | .seekComplete => [.raise]

@[simp] theorem raise_mem_seekCalls (st : SeekState) (w : Word) :
    .raise ∈ seekCalls st w ↔ st = .seekComplete ∨ st = .waitForStepRelease ∧ stepBit w = false := by
  cases st <;> simp [seekCalls]

@[simp] theorem clear_notMem_seekCalls (st : SeekState) (w : Word) : .clear ∉ seekCalls st w := by
  cases st <;> simp [seekCalls]

theorem afterAction_makesCalls (s : State) : MakesCalls s [.raise] (afterAction s) := makesCalls_raise rfl rfl

/-- R170 row by row: only the rows that pass through `SeekComplete` make a call. -/
theorem seekRun_makesCalls (s : State) : MakesCalls s (seekCalls s.seekState s.seekData) (seekRun s) := by
  have hset {v : State} (hv : v.seekState = .waitForStepSet) : MakesCalls v [] (seekRun v) := by
    cases hb : stepBit v.seekData with
    | false => rw [seekRun_set_idle hv hb]; exact makesCalls_nil rfl rfl
    | true => rw [seekRun_set_step hv hb]; exact makesCalls_nil rfl rfl
  cases hs : s.seekState with
  | waitForStepSet => exact hset hs
  | waitForStepRelease =>
    cases hb : stepBit s.seekData with
    | false => simpa [seekCalls, hb, seekRun_release_step hs hb] using afterAction_makesCalls s
    | true => simpa [seekCalls, hb, seekRun_release_held hs hb] using makesCalls_nil rfl rfl
  | seekComplete =>
    rw [seekRun_seekComplete hs]
    exact (afterAction_makesCalls s).trans rfl (hset (afterAction_seekState s))

theorem seekRun_retain_makesCalls (w : Word) (s : State) : MakesCalls s (seekCalls s.seekState w) (seekRun (retain w s)) :=
  have hrun := seekRun_makesCalls (retain w s)
  ⟨hrun.trace, hrun.line⟩

/-! ## The calls of an instruction -/

/-- A command write makes the calls of its command and then those of its seek run (R140). -/
theorem exec_command_makesCalls {i : Instr} {w : Word} (hw : commandWord i = some w) (h : exec i s = .next t) :
    ∃ c, (i.wf = true → commandOf w = c) ∧ MakesCalls s (dispatchCalls c ++ seekCalls s.seekState w) t := by
  obtain ⟨c, hc, hexec⟩ := exec_eq_commandWrite hw
  obtain ⟨u, hd, rfl⟩ := commandWrite_next ((hexec s).symm.trans h)
  obtain ⟨-, -, hseek, hnow, -⟩ := dispatch_frame hd
  rw [← hseek]
  exact ⟨c, hc, (dispatch_makesCalls hd).trans hnow (seekRun_retain_makesCalls w u)⟩

/-- Of the instructions that carry no command word, the delivered completion alone makes a call (R203). -/
theorem exec_other_makesCalls {i : Instr} (hw : commandWord i = none) (h : exec i s = .next t) :
    MakesCalls s (if i = .busyDone then [.raise] else []) t := by
  rcases exec_other hw h with ⟨_, v, rfl, hwrite⟩ | ⟨rfl, rfl⟩ | ⟨rfl, rfl⟩ | ⟨rfl, rfl⟩ | ⟨rfl, rfl⟩ | ⟨rfl, rfl⟩ | ⟨_, rfl, rfl⟩
  case inr.inr.inl => exact makesCalls_raise rfl rfl
  case inl =>
    have hi : i ≠ .busyDone := by rintro rfl; simp at hwrite
    rw [if_neg hi]
    exact makesCalls_nil rfl rfl
  all_goals exact makesCalls_nil rfl rfl

end Calls

/-- Settles O40: the raise is the completion's or the seek run's, the clear the command's. -/
theorem interruptHasTwoRaiseSitesAndOneClearSite : Obligations.InterruptHasTwoRaiseSitesAndOneClearSite := by
  intro i s t hi hrest h
  cases hw : commandWord i with
  | some w =>
    obtain ⟨c, hc, hcalls⟩ := exec_command_makesCalls hw h
    have hne : i ≠ .busyDone := by rintro rfl; cases hw
    exact ⟨_, hcalls.trace, by simp [hne, hrest], by simp [hc hi]⟩
  | none =>
    exact ⟨_, (exec_other_makesCalls hw h).trace, by simp, by simp⟩

/-- Settles O41: both kinds of instruction make a list of calls, and the line follows it. -/
theorem lineFollowsTheLastCall : Obligations.LineFollowsTheLastCall := by
  intro i s t h
  cases hw : commandWord i with
  | some w =>
    obtain ⟨c, -, hcalls⟩ := exec_command_makesCalls hw h
    exact ⟨_, hcalls.trace, hcalls.line⟩
  | none =>
    have hcalls := exec_other_makesCalls hw h
    exact ⟨_, hcalls.trace, hcalls.line⟩

end Sys2Proof.Machine

/-! # Reset and construction (R250, R251) -/

namespace Sys2Proof.Machine

/-- The environment's reset is the flag reset and then its two assignments to the seek machine (R251). -/
theorem exec_envReset (s : State) :
    exec .envReset s = .next { resetFlagsAndPosition s with seekState := .waitForStepSet, seekData := 0 } := rfl

/-- Settles O42: the flag reset writes the status fields and the position, and all else is carried over. -/
theorem environmentResetKeepsTheRest : Obligations.EnvironmentResetKeepsTheRest := fun s => exec_envReset s

/-- After construction the bits over the code of Done are `unitReady`, `trackZero` and the `index` of the first pulse (R94, R250). -/
theorem statusWord_construct (p : Params) (r : HostRegs) (image : Disk) (m : Memory) :
    statusWord p (State.construct p r image m).status = p.statusDone.setWidth 16 ||| 0x98 := by
  have hflags : flagAt 3 true ||| flagAt 4 true ||| flagAt 5 false ||| flagAt 6 false ||| flagAt 7 Config.unitReadyReset = 0x98 := by
    decide
  rw [← hflags]
  simp only [statusWord, State.construct, statusCode, BitVec.or_assoc]

/-- Settles O43: the handler of the first `IndexStart` sets `index` over the flag reset, and into the empty `pending` it inserts the end
of the pulse, due at 0 + 1100; the default code of Done is 0. -/
theorem constructionRunsItsProcedure : Obligations.ConstructionRunsItsProcedure := by
  refine ⟨fun s image => ?_, ?_⟩
  · exact exec_eventInstr .indexStart _
  · calc statusWord Params.default State.reset.status
      _ = Params.default.statusDone.setWidth 16 ||| 0x98 := statusWord_construct Params.default HostRegs.zero [] []
      _ = 0x98 := by decide

end Sys2Proof.Machine
